-- ==== Sys2Proof/Word.lean ====
section
/-! DEFINITION. The widths of the machine: bytes, 16-bit words, and the operand fields of an instruction (spec R5, R10, R12, R61). -/

namespace Sys2Proof

/-- A byte: the width of a general register, a timer and a memory cell (R4, R10). -/
abbrev Byte := BitVec 8

/-- A 16-bit word: an instruction word, `I`, `PC`, a stack entry (R4, R12 to R14, R60). -/
abbrev Word := BitVec 16

/-- The 12-bit address operand `nnn` (R61). -/
abbrev Addr12 := BitVec 12

/-- A four-bit field of an instruction word as it stands in the word (R61). -/
abbrev Nibble := BitVec 4

/-- The number of a general register, 0 to 15; register 15 is VF (R10). -/
abbrev Reg := Fin 16

/-- The number of a key, 0x0 to 0xF (R19). -/
abbrev Key := Fin 16

/-- `zext_16` of a byte (R5). -/
abbrev zext16 (v : Byte) : Word := v.setWidth 16

/-- `zext_16` of the address operand (R5, R63). -/
abbrev zextAddr (nnn : Addr12) : Word := nnn.setWidth 16

end Sys2Proof
end

