-- ==== Sys2Proof/Syntax.lean ====
section
/-! DEFINITION. The instructions: one constructor for each of the 34 rows of spec/opcode_table.json (spec R65). -/

namespace Sys2Proof

/-- The instructions of the machine, named as in R64, with their operand fields as values (R61 to R63).
`shr` and `shl` keep the field `y` that their effect ignores, so that an instruction stands for exactly one word. -/
inductive Instr where
  /-- `00E0`, CLS (R141) -/
  | cls
  /-- `00EE`, RET (R102) -/
  | ret
  /-- `1nnn`, JP nnn (R100) -/
  | jp (nnn : Addr12)
  /-- `2nnn`, CALL nnn (R101) -/
  | call (nnn : Addr12)
  /-- `3xkk`, SE Vx, kk (R105) -/
  | seImm (x : Reg) (kk : Byte)
  /-- `4xkk`, SNE Vx, kk (R106) -/
  | sneImm (x : Reg) (kk : Byte)
  /-- `5xy0`, SE Vx, Vy (R107) -/
  | seReg (x y : Reg)
  /-- `6xkk`, LD Vx, kk (R81) -/
  | ldImm (x : Reg) (kk : Byte)
  /-- `7xkk`, ADD Vx, kk (R82) -/
  | addImm (x : Reg) (kk : Byte)
  /-- `8xy0`, LD Vx, Vy (R83) -/
  | ldReg (x y : Reg)
  /-- `8xy1`, OR Vx, Vy (R84) -/
  | orReg (x y : Reg)
  /-- `8xy2`, AND Vx, Vy (R85) -/
  | andReg (x y : Reg)
  /-- `8xy3`, XOR Vx, Vy (R86) -/
  | xorReg (x y : Reg)
  /-- `8xy4`, ADD Vx, Vy (R87) -/
  | addReg (x y : Reg)
  /-- `8xy5`, SUB Vx, Vy (R88) -/
  | sub (x y : Reg)
  /-- `8xy6`, SHR Vx (R89) -/
  | shr (x y : Reg)
  /-- `8xy7`, SUBN Vx, Vy (R90) -/
  | subn (x y : Reg)
  /-- `8xyE`, SHL Vx (R91) -/
  | shl (x y : Reg)
  /-- `9xy0`, SNE Vx, Vy (R108) -/
  | sneReg (x y : Reg)
  /-- `Annn`, LD I, nnn (R121) -/
  | ldI (nnn : Addr12)
  /-- `Bnnn`, JP V0, nnn (R103) -/
  | jpV0 (nnn : Addr12)
  /-- `Cxkk`, RND Vx, kk (R92) -/
  | rnd (x : Reg) (kk : Byte)
  /-- `Dxyn`, DRW Vx, Vy, n (R142) -/
  | drw (x y : Reg) (n : Nibble)
  /-- `Ex9E`, SKP Vx (R109) -/
  | skp (x : Reg)
  /-- `ExA1`, SKNP Vx (R110) -/
  | sknp (x : Reg)
  /-- `Fx07`, LD Vx, DT (R150) -/
  | ldFromDT (x : Reg)
  /-- `Fx0A`, LD Vx, K (R153) -/
  | ldKey (x : Reg)
  /-- `Fx15`, LD DT, Vx (R151) -/
  | ldDT (x : Reg)
  /-- `Fx18`, LD ST, Vx (R152) -/
  | ldST (x : Reg)
  /-- `Fx1E`, ADD I, Vx (R122) -/
  | addI (x : Reg)
  /-- `Fx29`, LD F, Vx (R123) -/
  | ldFont (x : Reg)
  /-- `Fx33`, LD B, Vx (R124) -/
  | bcd (x : Reg)
  /-- `Fx55`, LD [I], Vx (R125) -/
  | stRegs (x : Reg)
  /-- `Fx65`, LD Vx, [I] (R126) -/
  | ldRegs (x : Reg)
deriving DecidableEq, Repr

end Sys2Proof
end

