-- ==== Sys2Proof/Decode.lean ====
section
/-! DEFINITION. Decoding and encoding: the fields of a word, `Decode(w)`, the encoder, the opcode table (spec R60 to R66). -/

namespace Sys2Proof

/-! ## Fields of an instruction word (R61) -/

/-- A four-bit field read as a register number. -/
def regOf (b : Nibble) : Reg := ⟨b.toNat, b.isLt⟩

/-- A register number as the four-bit field that names it. -/
def Reg.bits (x : Reg) : Nibble := BitVec.ofNat 4 x.val

/-- `op = w[15:12]`. -/
def opField (w : Word) : Nibble := w.extractLsb' 12 4

/-- `x = w[11:8]`. -/
def xField (w : Word) : Reg := regOf (w.extractLsb' 8 4)

/-- `y = w[7:4]`. -/
def yField (w : Word) : Reg := regOf (w.extractLsb' 4 4)

/-- `n = w[3:0]`. -/
def nField (w : Word) : Nibble := w.extractLsb' 0 4

/-- `kk = w[7:0]`. -/
def kkField (w : Word) : Byte := w.extractLsb' 0 8

/-- `nnn = w[11:0]`. -/
def nnnField (w : Word) : Addr12 := w.extractLsb' 0 12

/-! ## Decode (R64) -/

/-- The result of decoding a word: one of the 34 instructions, or the unknown instruction, which keeps the word (R64, R66). -/
inductive Decoded where
  | instr (i : Instr)
  | unknown (w : Word)
deriving DecidableEq, Repr

/-- Group 0x0: the whole word must match (R64). -/
def decodeGroup0 (w : Word) : Decoded :=
  if w = 0x00E0#16 then .instr .cls
  else if w = 0x00EE#16 then .instr .ret
  else .unknown w

/-- Group 0x8: the low nibble selects (R64). -/
def decodeGroup8 (w : Word) : Decoded :=
  match (nField w).toNat with
  | 0x0 => .instr (.ldReg (xField w) (yField w))
  | 0x1 => .instr (.orReg (xField w) (yField w))
  | 0x2 => .instr (.andReg (xField w) (yField w))
  | 0x3 => .instr (.xorReg (xField w) (yField w))
  | 0x4 => .instr (.addReg (xField w) (yField w))
  | 0x5 => .instr (.sub (xField w) (yField w))
  | 0x6 => .instr (.shr (xField w) (yField w))
  | 0x7 => .instr (.subn (xField w) (yField w))
  | 0xE => .instr (.shl (xField w) (yField w))
  | _ => .unknown w

/-- Group 0xE: the low byte selects (R64). -/
def decodeGroupE (w : Word) : Decoded :=
  if kkField w = 0x9E#8 then .instr (.skp (xField w))
  else if kkField w = 0xA1#8 then .instr (.sknp (xField w))
  else .unknown w

/-- Group 0xF: the low byte selects (R64). -/
def decodeGroupF (w : Word) : Decoded :=
  if kkField w = 0x07#8 then .instr (.ldFromDT (xField w))
  else if kkField w = 0x0A#8 then .instr (.ldKey (xField w))
  else if kkField w = 0x15#8 then .instr (.ldDT (xField w))
  else if kkField w = 0x18#8 then .instr (.ldST (xField w))
  else if kkField w = 0x1E#8 then .instr (.addI (xField w))
  else if kkField w = 0x29#8 then .instr (.ldFont (xField w))
  else if kkField w = 0x33#8 then .instr (.bcd (xField w))
  else if kkField w = 0x55#8 then .instr (.stRegs (xField w))
  else if kkField w = 0x65#8 then .instr (.ldRegs (xField w))
  else .unknown w

/-- `Decode(w)`, total on every word: it dispatches on the high nibble, then in groups 5, 8 and 9 on the low nibble and in
groups E and F on the low byte; a fixed field must match exactly (R64; the strictness is the spec's decision D12). -/
def decode (w : Word) : Decoded :=
  match (opField w).toNat with
  | 0x0 => decodeGroup0 w
  | 0x1 => .instr (.jp (nnnField w))
  | 0x2 => .instr (.call (nnnField w))
  | 0x3 => .instr (.seImm (xField w) (kkField w))
  | 0x4 => .instr (.sneImm (xField w) (kkField w))
  | 0x5 => if nField w = 0#4 then .instr (.seReg (xField w) (yField w)) else .unknown w
  | 0x6 => .instr (.ldImm (xField w) (kkField w))
  | 0x7 => .instr (.addImm (xField w) (kkField w))
  | 0x8 => decodeGroup8 w
  | 0x9 => if nField w = 0#4 then .instr (.sneReg (xField w) (yField w)) else .unknown w
  | 0xA => .instr (.ldI (nnnField w))
  | 0xB => .instr (.jpV0 (nnnField w))
  | 0xC => .instr (.rnd (xField w) (kkField w))
  | 0xD => .instr (.drw (xField w) (yField w) (nField w))
  | 0xE => decodeGroupE w
  | _ => decodeGroupF w

/-! ## Bytes (R42, R60) -/

/-- Why a byte string is no instruction. -/
inductive DecodeError where
  /-- the word is in the unknown space of R66 -/
  | unknownInstruction (w : Word)
  /-- fewer than the two bytes that every instruction has (R60) -/
  | truncated (length : Nat)
deriving DecidableEq, Repr

/-- The word of two consecutive bytes, high byte first (R42, R60). -/
def wordOfBytes (hi lo : Byte) : Word := hi ++ lo

/-- The high byte of a word, which stands at the lower address (R42). -/
def highByte (w : Word) : Byte := w.extractLsb' 8 8

/-- The low byte of a word (R42). -/
def lowByte (w : Word) : Byte := w.extractLsb' 0 8

/-- Decoding of a byte string: the first instruction and the bytes after it, or the reason there is none. -/
def decodeBytes : List Byte → Except DecodeError (Instr × List Byte)
  | hi :: lo :: rest =>
    match decode (wordOfBytes hi lo) with
    | .instr i => .ok (i, rest)
    | .unknown w => .error (.unknownInstruction w)
  | bytes => .error (.truncated bytes.length)

/-- The instruction the decoder reads from a word of `nbits` bits numbered as spec/opcode_table.json numbers them;
every bit above `nbits` is 0. The word is laid out as the hardware stores it, high byte first (R42). -/
def decodeTableWord (nbits w : Nat) : Option Instr :=
  let word : Word := BitVec.ofNat 16 (w % 2 ^ nbits)
  match decodeBytes [highByte word, lowByte word] with
  | .ok (i, _) => some i
  | .error _ => none

/-! ## Encoding (R62, R65) -/

/-- Format NNN: `op[4] nnn[12]` (R62). -/
def formatNNN (op : Nibble) (nnn : Addr12) : Word := op ++ nnn

/-- Format XKK: `op[4] x[4] kk[8]`; format X is the same with `kk` a minor opcode (R62). -/
def formatXKK (op : Nibble) (x : Reg) (kk : Byte) : Word := op ++ (x.bits ++ kk)

/-- Format XYN: `op[4] x[4] y[4] n[4]`; format XY is the same with `n` a minor opcode (R62). -/
def formatXYN (op : Nibble) (x y : Reg) (n : Nibble) : Word := op ++ (x.bits ++ (y.bits ++ n))

/-- The word of an instruction, from the patterns of R65 and the formats of R62. -/
def encode : Instr → Word
  | .cls => 0x00E0#16
  | .ret => 0x00EE#16
  | .jp nnn => formatNNN 0x1#4 nnn
  | .call nnn => formatNNN 0x2#4 nnn
  | .seImm x kk => formatXKK 0x3#4 x kk
  | .sneImm x kk => formatXKK 0x4#4 x kk
  | .seReg x y => formatXYN 0x5#4 x y 0x0#4
  | .ldImm x kk => formatXKK 0x6#4 x kk
  | .addImm x kk => formatXKK 0x7#4 x kk
  | .ldReg x y => formatXYN 0x8#4 x y 0x0#4
  | .orReg x y => formatXYN 0x8#4 x y 0x1#4
  | .andReg x y => formatXYN 0x8#4 x y 0x2#4
  | .xorReg x y => formatXYN 0x8#4 x y 0x3#4
  | .addReg x y => formatXYN 0x8#4 x y 0x4#4
  | .sub x y => formatXYN 0x8#4 x y 0x5#4
  | .shr x y => formatXYN 0x8#4 x y 0x6#4
  | .subn x y => formatXYN 0x8#4 x y 0x7#4
  | .shl x y => formatXYN 0x8#4 x y 0xE#4
  | .sneReg x y => formatXYN 0x9#4 x y 0x0#4
  | .ldI nnn => formatNNN 0xA#4 nnn
  | .jpV0 nnn => formatNNN 0xB#4 nnn
  | .rnd x kk => formatXKK 0xC#4 x kk
  | .drw x y n => formatXYN 0xD#4 x y n
  | .skp x => formatXKK 0xE#4 x 0x9E#8
  | .sknp x => formatXKK 0xE#4 x 0xA1#8
  | .ldFromDT x => formatXKK 0xF#4 x 0x07#8
  | .ldKey x => formatXKK 0xF#4 x 0x0A#8
  | .ldDT x => formatXKK 0xF#4 x 0x15#8
  | .ldST x => formatXKK 0xF#4 x 0x18#8
  | .addI x => formatXKK 0xF#4 x 0x1E#8
  | .ldFont x => formatXKK 0xF#4 x 0x29#8
  | .bcd x => formatXKK 0xF#4 x 0x33#8
  | .stRegs x => formatXKK 0xF#4 x 0x55#8
  | .ldRegs x => formatXKK 0xF#4 x 0x65#8

/-- The two bytes of an instruction in memory order, high byte first (R42, R60). -/
def encodeBytes (i : Instr) : List Byte := [highByte (encode i), lowByte (encode i)]

/-! ## The opcode table (R65), as masks and matches -/

/-- One row of the table: a word selects the row when `w & mask = pattern` (R65). -/
structure OpcodeRow where
  pattern : Word
  mask : Word
deriving DecidableEq, Repr

/-- The word selects the row. -/
def OpcodeRow.selects (r : OpcodeRow) (w : Word) : Bool := w &&& r.mask == r.pattern

/-- The row of an instruction, its `match` and `mask` copied from the table of R65. -/
def rowOf : Instr → OpcodeRow
  | .cls => ⟨0x00E0#16, 0xFFFF#16⟩
  | .ret => ⟨0x00EE#16, 0xFFFF#16⟩
  | .jp _ => ⟨0x1000#16, 0xF000#16⟩
  | .call _ => ⟨0x2000#16, 0xF000#16⟩
  | .seImm _ _ => ⟨0x3000#16, 0xF000#16⟩
  | .sneImm _ _ => ⟨0x4000#16, 0xF000#16⟩
  | .seReg _ _ => ⟨0x5000#16, 0xF00F#16⟩
  | .ldImm _ _ => ⟨0x6000#16, 0xF000#16⟩
  | .addImm _ _ => ⟨0x7000#16, 0xF000#16⟩
  | .ldReg _ _ => ⟨0x8000#16, 0xF00F#16⟩
  | .orReg _ _ => ⟨0x8001#16, 0xF00F#16⟩
  | .andReg _ _ => ⟨0x8002#16, 0xF00F#16⟩
  | .xorReg _ _ => ⟨0x8003#16, 0xF00F#16⟩
  | .addReg _ _ => ⟨0x8004#16, 0xF00F#16⟩
  | .sub _ _ => ⟨0x8005#16, 0xF00F#16⟩
  | .shr _ _ => ⟨0x8006#16, 0xF00F#16⟩
  | .subn _ _ => ⟨0x8007#16, 0xF00F#16⟩
  | .shl _ _ => ⟨0x800E#16, 0xF00F#16⟩
  | .sneReg _ _ => ⟨0x9000#16, 0xF00F#16⟩
  | .ldI _ => ⟨0xA000#16, 0xF000#16⟩
  | .jpV0 _ => ⟨0xB000#16, 0xF000#16⟩
  | .rnd _ _ => ⟨0xC000#16, 0xF000#16⟩
  | .drw _ _ _ => ⟨0xD000#16, 0xF000#16⟩
  | .skp _ => ⟨0xE09E#16, 0xF0FF#16⟩
  | .sknp _ => ⟨0xE0A1#16, 0xF0FF#16⟩
  | .ldFromDT _ => ⟨0xF007#16, 0xF0FF#16⟩
  | .ldKey _ => ⟨0xF00A#16, 0xF0FF#16⟩
  | .ldDT _ => ⟨0xF015#16, 0xF0FF#16⟩
  | .ldST _ => ⟨0xF018#16, 0xF0FF#16⟩
  | .addI _ => ⟨0xF01E#16, 0xF0FF#16⟩
  | .ldFont _ => ⟨0xF029#16, 0xF0FF#16⟩
  | .bcd _ => ⟨0xF033#16, 0xF0FF#16⟩
  | .stRegs _ => ⟨0xF055#16, 0xF0FF#16⟩
  | .ldRegs _ => ⟨0xF065#16, 0xF0FF#16⟩

/-- One instruction of every row, in the table's order, its operands all 0. -/
def rowSamples : List Instr :=
  [.cls, .ret, .jp 0, .call 0, .seImm 0 0, .sneImm 0 0, .seReg 0 0, .ldImm 0 0, .addImm 0 0, .ldReg 0 0]
  ++ [.orReg 0 0, .andReg 0 0, .xorReg 0 0, .addReg 0 0, .sub 0 0, .shr 0 0, .subn 0 0, .shl 0 0, .sneReg 0 0, .ldI 0]
  ++ [.jpV0 0, .rnd 0 0, .drw 0 0 0, .skp 0, .sknp 0, .ldFromDT 0, .ldKey 0, .ldDT 0, .ldST 0, .addI 0]
  ++ [.ldFont 0, .bcd 0, .stRegs 0, .ldRegs 0]

/-- The 34 rows of the opcode table, in its order (R65). -/
def opcodeTable : List OpcodeRow := rowSamples.map rowOf

end Sys2Proof
end

