-- ==== Sys2Proof/Config.lean ====
section
/-! DEFINITION. The parameters of the machine (spec R4) and the free values of the random source and of memory never written
(R9, R92, R197). -/

namespace Sys2Proof

namespace Config

/-- `MEM_SIZE`, the number of bytes of memory (R4). -/
def memSize : Nat := 4096

/-- `ADDR_MAX`, the highest address (R4). -/
def addrMax : Nat := 4095

/-- The highest `PC` at which both bytes of an instruction exist (R42). -/
def fetchMax : Nat := 4094

/-- `PROG_BASE`, the load address and the `PC` after reset (R4). -/
def progBase : Nat := 0x200

/-- `PROG_MAX`, the length of the largest program image in bytes (R4). -/
def progMax : Nat := 3584

/-- `FONT_BYTES`, the size of the fontset (R4). -/
def fontBytes : Nat := 80

/-- `GLYPH_BYTES`, the size of one glyph (R4). -/
def glyphBytes : Nat := 5

/-- `draw8()`: the byte that the `n`-th execution of `Cxkk` draws, under no law at all (R9, R92, D23).
DESIGN CHOICE, safe: a free value, applied to the counter `draws` of State (log entry 6). -/
opaque draw8 : Nat → Byte

/-- `MEM_INIT`: the byte that an address outside the font region holds before anything is written there, under no law at all (R4, R17,
R197, D17). DESIGN CHOICE, safe: a free value (log entry 1). -/
opaque memInit : Nat → Byte

end Config

/-- The parameters of R4 that the spec leaves OPEN and makes an argument of the model: `FONT_BASE`, constrained to
`FONT_BASE + 80 <= 0x200`, and `FONT_TABLE`, one row of five bytes for each hex digit (R4, R26, D4, D28).
DESIGN CHOICE, safe: they stand in State as plain data that no transition writes, so that a statement about
every state holds for every choice of them (log entry 5). -/
structure Params where
  fontBase : Fin 433
  fontTable : Vector (Vector Byte 5) 16
deriving DecidableEq, Repr

end Sys2Proof
end

