-- ==== Sys2Proof/Machine/Agents.lean ====
section
/-! DEFINITION. The transitions of the machine and the order in which the agents fire them, as plain data (spec R7, R9, R180). -/

namespace Sys2Proof

namespace Machine

/-- The transitions of the machine, each fired by its agent (R7). -/
inductive Transition where
  /-- `Step()`, by the executor (R8) -/
  | step
  /-- `Tick60()`, by the Cycle Driver (R171) -/
  | tick60
  /-- `KeyDown(k)`, by the input adapter (R172) -/
  | keyDown (k : Key)
  /-- `KeyUp(k)`, by the input adapter (R173) -/
  | keyUp (k : Key)
  /-- `Deliver()`, by the render adapter (R174) -/
  | deliver
  /-- `Reset()`, by the host (R190) -/
  | reset
  /-- `LoadProgram(bytes)`, by the host (R191) -/
  | loadProgram (bytes : List Byte)
deriving DecidableEq, Repr, Inhabited

/-- What the agents fire once the finite schedule of State is spent, without end (R180). -/
inductive LaterMoves where
  /-- these transitions, over and over; with none, `Step()` only -/
  | repeating (period : List Transition)
  /-- any transitions at all: `Config.agentMove turn`, then that of the next turn, and so on -/
  | free (turn : Nat)
deriving DecidableEq, Repr

end Machine

/-- The transition that the agents fire at a turn, under no law: any sequence of transitions is an execution (R7, R180, D19).
DESIGN CHOICE, safe: a free value, applied to the turn that State holds (log entry 7). -/
opaque Config.agentMove : Nat → Machine.Transition

end Sys2Proof
end

