-- ==== Sys2Proof/Machine/Font.lean ====
section
/-! DEFINITION. The spec's defaults for the open parameters `FONT_BASE` and `FONT_TABLE` (spec R4, R26). -/

namespace Sys2Proof.Machine

/-- `FONT_BASE` in the reset state: the spec's default 0x000 (R4, D4).
DESIGN CHOICE, unsafe for a claim about a run from reset, since the spec leaves the address open (log entry 2). -/
def defaultFontBase : Fin 433 := 0

/-- `FONT_TABLE` in the reset state: the table of R26, one row for each hex digit, top row of the glyph first.
PRESUMED, unsafe for a claim about a run from reset: the spec supplies the bytes from general knowledge (log entry 3). -/
def defaultFontTable : Vector (Vector Byte 5) 16 :=
  #v[#v[0xF0, 0x90, 0x90, 0x90, 0xF0],
     #v[0x20, 0x60, 0x20, 0x20, 0x70],
     #v[0xF0, 0x10, 0xF0, 0x80, 0xF0],
     #v[0xF0, 0x10, 0xF0, 0x10, 0xF0],
     #v[0x90, 0x90, 0xF0, 0x10, 0x10],
     #v[0xF0, 0x80, 0xF0, 0x10, 0xF0],
     #v[0xF0, 0x80, 0xF0, 0x90, 0xF0],
     #v[0xF0, 0x10, 0x20, 0x40, 0x40],
     #v[0xF0, 0x90, 0xF0, 0x90, 0xF0],
     #v[0xF0, 0x90, 0xF0, 0x10, 0xF0],
     #v[0xF0, 0x90, 0xF0, 0x90, 0x90],
     #v[0xE0, 0x90, 0xE0, 0x90, 0xE0],
     #v[0xF0, 0x80, 0x80, 0x80, 0xF0],
     #v[0xE0, 0x90, 0x90, 0x90, 0xE0],
     #v[0xF0, 0x80, 0xF0, 0x80, 0xF0],
     #v[0xF0, 0x80, 0xF0, 0x80, 0x80]]

/-- The parameters of the reset state. -/
def defaultParams : Params := ⟨defaultFontBase, defaultFontTable⟩

end Sys2Proof.Machine
end

