-- ==== Sys2Proof/Machine/State.lean ====
section
/-! DEFINITION. The state of the machine, its reset value, and the reasons the model stops (spec R10 to R22, R25, R160). -/

namespace Sys2Proof.Machine

/-- `run`, the run state (R20). -/
inductive RunState where
  | running
  | awaitingKey
  | faulted
deriving DecidableEq, Repr

/-- `fault`: why the core is faulted, with the information that R160 records; `none` while it is not (R22, R160). -/
inductive FaultRecord where
  /-- code 0: no fault -/
  | none
  /-- code 1: a call at `pc` to `nnn` with 16 entries on the stack (R161) -/
  | stackOverflow (pc : Word) (nnn : Addr12)
  /-- code 2: a return at `pc` with an empty stack (R162) -/
  | stackUnderflow (pc : Word)
  /-- code 3: a fetch or a data access by the instruction at `pc` whose highest offending address is `addr`, an
  unbounded integer (R41, R163) -/
  | addressOutOfRange (pc : Word) (addr : Nat)
  /-- code 4: a key number `k` above 15 used by the instruction at `pc` (R164) -/
  | keyIndexOutOfRange (pc : Word) (k : Byte)
deriving DecidableEq, Repr

/-- `FB`: 32 rows, top first, of 64 cells, left first (R18). -/
abbrev Framebuffer := Vector (Vector Bool 64) 32

/-- Main memory: the bytes written, by rising address; a byte of the font region that holds the fontset's byte is not listed (R17, R40). -/
abbrev Memory := List Host.Cell

/-- The state of the machine: every element of R10 to R22 under the spec's name for it, and the model's own four
fields `params`, `draws`, `schedule` and `later`. -/
structure State where
  /-- the general registers V0 to VF (R10, R11) -/
  V : Vector Byte 16
  /-- the index register (R12) -/
  I : Word
  /-- the program counter (R13) -/
  PC : Word
  /-- the number of entries on the call stack, 0 to 16 (R14) -/
  sp : Fin 17
  /-- the call stack (R14) -/
  stack : Vector Word 16
  /-- the delay timer (R15) -/
  DT : Byte
  /-- the sound timer (R16) -/
  ST : Byte
  /-- main memory (R17) -/
  mem : Memory
  /-- the framebuffer (R18) -/
  FB : Framebuffer
  /-- the input latch: `true` for a key that is down (R19) -/
  keys : Vector Bool 16
  /-- the run state (R20) -/
  run : RunState
  /-- `wait_reg`, the target of a key-wait (R20) -/
  waitReg : Reg
  /-- `redraw_pending` (R21) -/
  redrawPending : Bool
  /-- the fault record (R22) -/
  fault : FaultRecord
  /-- the sticky warning flag (R22) -/
  warn : Bool
  /-- `warn_word`, the most recent unknown word (R22) -/
  warnWord : Word
  /-- `warn_pc`, the address of the most recent unknown word (R22) -/
  warnPC : Word
  /-- MODEL's own: the open parameters of R4; no transition writes them (log entry 5) -/
  params : Params
  /-- MODEL's own: how many bytes have been drawn from the random source (log entry 6) -/
  draws : Nat
  /-- MODEL's own: the transitions that the agents fire next (R9, log entry 7) -/
  schedule : List Transition
  /-- MODEL's own: the transitions that the agents fire after those, without end (R180, log entry 7) -/
  later : LaterMoves
deriving DecidableEq, Repr

/-- Why the model itself stops. The faults of the core (R160) are no such stop: entering one is a next state (R168). -/
inductive Fault where
  /-- `ImageTooLarge`: raised by `LoadProgram` of a longer image than 3584 bytes; no valid machine state can be formed and
  the machine must not be stepped (R166, R191, U20). Safe: nothing is claimed after it (log entry 16). -/
  | imageTooLarge (length : Nat)
deriving DecidableEq, Repr

/-- Why the model gives an instruction no meaning. -/
inductive Refusal where
  /-- raised by the arm of an instruction that has no meaning yet; no arm raises it now. Safe. -/
  | notModelled (mnemonic : String)
deriving DecidableEq, Repr

/-- A framebuffer with every cell 0. -/
def blankFramebuffer : Framebuffer := Vector.replicate 32 (Vector.replicate 64 false)

/-- The state after `Reset()` of a machine on which nothing has happened before (R25, R190). The spec gives every register
its value here but `keys`, which it leaves open: DESIGN CHOICE, unsafe, all keys up (log entry 4); memory lists nothing. -/
def State.reset : State where
  V := Vector.replicate 16 0
  I := 0
  PC := 0x200
  sp := 0
  stack := Vector.replicate 16 0
  DT := 0
  ST := 0
  mem := []
  FB := blankFramebuffer
  keys := Vector.replicate 16 false
  run := .running
  waitReg := 0
  redrawPending := false
  fault := .none
  warn := false
  warnWord := 0
  warnPC := 0
  params := defaultParams
  draws := 0
  schedule := []
  later := .repeating []

end Sys2Proof.Machine
end

