-- ==== Sys2Proof/Machine/Memory.lean ====
section
/-! DEFINITION. Main memory: what an unlisted address reads as, reading and writing one byte, the canonical form (spec R40 to R45). -/

namespace Sys2Proof.Machine

/-- The address lies in the font region `FONT_BASE .. FONT_BASE + 79` (R45). -/
def inFont (p : Params) (a : Nat) : Bool :=
  p.fontBase.val ≤ a && a < p.fontBase.val + Config.fontBytes

/-- `FONT_TABLE[j]`, the byte at offset `j` of the fontset (R26). -/
def fontByte (p : Params) (j : Nat) : Byte :=
  (p.fontTable[j / Config.glyphBytes % 16]'(Nat.mod_lt _ (by decide)))[j % Config.glyphBytes]'(Nat.mod_lt _ (by decide))

/-- What is known of an address that memory does not list: the fontset's byte in the font region (R25), nothing elsewhere, where the
content is the open parameter `MEM_INIT` (R197). -/
def knownByte (p : Params) (a : Nat) : Option Byte :=
  if inFont p a then some (fontByte p (a - p.fontBase.val)) else none

/-- What an address that memory does not list reads as, for a given `MEM_INIT` (R25, R197). -/
def unlistedByte (init : Nat → Byte) (p : Params) (a : Nat) : Byte := (knownByte p a).getD (init a)

namespace Memory

/-- The listed byte at an address, if there is one. -/
def find? (a : Nat) : Memory → Option Byte
  | [] => none
  | (b, v) :: rest => if a = b then some v else find? a rest

/-- The byte at an address, for a given content of the bytes never written (R44, R197). -/
def readFrom (init : Nat → Byte) (p : Params) (m : Memory) (a : Nat) : Byte := (find? a m).getD (unlistedByte init p a)

/-- The byte at an address (R44); a byte never written is the free value `Config.memInit` (R197, D17).
DESIGN CHOICE, safe: no value is chosen for it (log entry 1). -/
def read (p : Params) (m : Memory) (a : Nat) : Byte := readFrom Config.memInit p m a

/-- Lists a byte at its place among rising addresses. -/
def insert (a : Nat) (v : Byte) : Memory → Memory
  | [] => [(a, v)]
  | (b, w) :: rest =>
    if a < b then (a, v) :: (b, w) :: rest
    else if a = b then (a, v) :: rest
    else (b, w) :: insert a v rest

/-- Takes an address off the list. -/
def erase (a : Nat) (m : Memory) : Memory := m.filter fun c => c.1 != a

/-- `mem[addr] <- v` (R41, R44), keeping the canonical form: the fontset's own byte is not listed in the font region. Nothing is compared with
a byte never written, whose value is free. -/
def write (p : Params) (m : Memory) (a : Nat) (v : Byte) : Memory :=
  if knownByte p a = some v then erase a m else insert a v m

/-- Consecutive bytes written from an address up. -/
def writeList (p : Params) (m : Memory) (a : Nat) : List Byte → Memory
  | [] => m
  | v :: vs => writeList p (write p m a v) (a + 1) vs

/-- `mem[FONT_BASE + j] <- FONT_TABLE[j]` for the 80 bytes of the fontset (R190). -/
def restoreFont (p : Params) (m : Memory) : Memory := m.filter fun c => !inFont p c.1

/-- The canonical form: addresses strictly rising and inside memory, no entry equal to what is known of its address unlisted. -/
def wf (p : Params) (m : Memory) : Bool :=
  decide (m.Pairwise fun c d => c.1 < d.1) && m.all fun c => decide (c.1 < Config.memSize) && decide (knownByte p c.1 ≠ some c.2)

end Memory

end Sys2Proof.Machine
end

