-- ==== Sys2Proof/Machine/Operands.lean ====
section
/-! DEFINITION. Operands: reading and writing registers, bytes of memory, cells of the framebuffer and keys (spec R10, R18, R19, R61, R120). -/

namespace Sys2Proof.Machine

namespace State

/-- `V[x]` (R10). -/
def reg (s : State) (x : Reg) : Byte := s.V[x]

/-- `V[x] <- v` (R10). -/
def setReg (s : State) (x : Reg) (v : Byte) : State := { s with V := s.V.set x v }

/-- `mem[a]` (R41, R44); the range is checked before, by `spanCheck`. -/
def byte (s : State) (a : Nat) : Byte := Memory.read s.params s.mem a

/-- `mem[a] <- v` (R41, R44); the range is checked before, by `spanCheck`. -/
def writeByte (s : State) (a : Nat) (v : Byte) : State := { s with mem := Memory.write s.params s.mem a v }

/-- `FB(px, py)` (R18). -/
def cell (s : State) (px : Fin 64) (py : Fin 32) : Bool := s.FB[py][px]

/-- `keys[k]`, for a key number in range (R19). -/
def key (s : State) (k : Key) : Bool := s.keys[k]

/-- `keys[k] <- b` (R172, R173). -/
def setKey (s : State) (k : Key) (b : Bool) : State := { s with keys := s.keys.set k b }

end State

/-- The effective address `I + i`, an unbounded integer (R120). -/
def effAddr (s : State) (i : Nat) : Nat := s.I.toNat + i

/-- The registers V0 to Vx in ascending order, the operand of `Fx55` and `Fx65` (R125, R126). -/
def regsUpTo (x : Reg) : List Reg := (List.finRange 16).filter fun i => decide (i ≤ x)

/-- The key number in `V[x]`, when it is at most 15; above 15 `keyCheck` faults (R109, R110). The modulus is never seen. -/
def keyNumber (s : State) (x : Reg) : Key := ⟨(s.reg x).toNat % 16, Nat.mod_lt _ (by decide)⟩

/-- The hundreds digit of a byte (R124). -/
def hundredsDigit (v : Byte) : Byte := BitVec.ofNat 8 (v.toNat / 100)

/-- The tens digit of a byte (R124). -/
def tensDigit (v : Byte) : Byte := BitVec.ofNat 8 (v.toNat / 10 % 10)

/-- The ones digit of a byte (R124). -/
def onesDigit (v : Byte) : Byte := BitVec.ofNat 8 (v.toNat % 10)

/-- The column `(x0 + col) mod 64`, the sum not reduced modulo 256 first (R140, R142). -/
def wrapX (x0 : Byte) (col : Nat) : Fin 64 := ⟨(x0.toNat + col) % 64, Nat.mod_lt _ (by decide)⟩

/-- The row `(y0 + row) mod 32` (R140, R142). -/
def wrapY (y0 : Byte) (row : Nat) : Fin 32 := ⟨(y0.toNat + row) % 32, Nat.mod_lt _ (by decide)⟩

/-- The bit of a sprite byte at column offset `col`, most significant bit first: `b[7 - col]` (R140, R142). -/
def spriteBit (b : Byte) (col : Nat) : Bool := b.getLsbD (7 - col)

end Sys2Proof.Machine
end

