-- ==== Sys2Proof/Machine/Flags.lean ====
section
/-! DEFINITION. The flag VF: its value for each flag-writing instruction and the order of the two writes (spec R11, R80). -/

namespace Sys2Proof.Machine

/-- The number of the flag register VF (R11). -/
def flagReg : Reg := 15

/-- VF is always written with 0 or 1 (R11). -/
def flagByte (b : Bool) : Byte := if b then 1 else 0

/-- The carry of an addition: the exact sum exceeds 255 (R87). -/
def carryFlag (a b : Byte) : Bool := decide (a.toNat + b.toNat > 255)

/-- The flag of a subtraction: the minuend is strictly greater than the subtrahend (R80(c), R88, R90, conflict C6). -/
def minuendGreater (minuend subtrahend : Byte) : Bool := decide (minuend.toNat > subtrahend.toNat)

/-- The bit that a right shift shifts out, bit 0 (R89). -/
def shiftOutRight (a : Byte) : Bool := a.getLsbD 0

/-- The bit that a left shift shifts out, bit 7 (R91). -/
def shiftOutLeft (a : Byte) : Bool := a.getLsbD 7

/-- `V[0xF] <- 1 if b else 0` (R11). -/
def State.setFlag (s : State) (b : Bool) : State := s.setReg flagReg (flagByte b)

/-- The two writes of a flag-writing arithmetic instruction, the flag first and then the result, so that with `x = 0xF` the result
remains (R80(d); the order is the spec's decision D6, log entry 12). Flag and result are computed from the state before. -/
def writeFlagged (s : State) (x : Reg) (flag : Bool) (result : Byte) : State := (s.setFlag flag).setReg x result

end Sys2Proof.Machine
end

