-- ==== Sys2Proof/Machine/Ops.lean ====
section
/-! DEFINITION. The shared operations: the program counter, entering a fault, the checks, the stack, the fetch (spec R13, R41, R42, R165, R168). -/

namespace Sys2Proof.Machine

/-- The three outcomes of one instruction. -/
abbrev Result := Host.Outcome State Fault Refusal

namespace State

/-- `PC <- PC + k`, on the 16 bits of the register (R13). DEDUCED, safe: from a `PC` that can be fetched the sum never
wraps (R13); in a state that no run reaches it is taken modulo 2^16 (log entry 14). -/
def advance (s : State) (k : Word) : State := { s with PC := s.PC + k }

/-- The normal advance `PC <- PC + 2` (R6, R13). -/
def next (s : State) : State := s.advance 2

/-- `PC <- target` (R13). -/
def jump (s : State) (target : Word) : State := { s with PC := target }

/-- `Skip(cond)` (R104). -/
def skip (s : State) (cond : Bool) : State := if cond then s.advance 4 else s.advance 2

/-- Fault entry (R168): the record is kept, the core stops, and every other element keeps its value. There is no handler and no
return from it but `Reset()` (R169), which is `resetMachine`. -/
def raise (s : State) (f : FaultRecord) : State := { s with fault := f, run := .faulted }

/-- The report and the advance of an unknown word (R165; the uniform policy is the spec's resolution of C3). -/
def warnUnknown (s : State) (w : Word) : State :=
  ({ s with warn := true, warnWord := w, warnPC := s.PC } : State).next

/-- `stack[sp] <- v; sp <- sp + 1` (R14, R101); with 16 entries held nothing changes, but `callCheck` faults before. -/
def push (s : State) (v : Word) : State :=
  if h : s.sp.val < 16 then { s with stack := s.stack.set s.sp.val v, sp := ⟨s.sp.val + 1, by omega⟩ } else s

/-- The entry that a return pops, `stack[sp - 1]` (R14, R102). -/
def top (s : State) : Word := s.stack[s.sp.val - 1]'(by have := s.sp.isLt; omega)

/-- `sp <- sp - 1`; the popped entry stays in `stack` (R14, R102). -/
def pop (s : State) : State := { s with sp := ⟨s.sp.val - 1, by have := s.sp.isLt; omega⟩ }

end State

/-! ## The execute-stage checks (R167) -/

/-- `2nnn` with 16 entries held (R101, R161). -/
def callCheck (nnn : Addr12) (s : State) : FaultRecord :=
  if s.sp.val = 16 then .stackOverflow s.PC nnn else .none

/-- `00EE` with an empty stack (R102, R162). -/
def retCheck (s : State) : FaultRecord :=
  if s.sp.val = 0 then .stackUnderflow s.PC else .none

/-- An access to `count` bytes at `I`: the highest address is checked before any effect (R41, R120); no byte, no check (R142). -/
def spanCheck (count : Nat) (s : State) : FaultRecord :=
  if 0 < count ∧ effAddr s (count - 1) > Config.addrMax then .addressOutOfRange s.PC (effAddr s (count - 1)) else .none

/-- A key number above 15 (R109, R110, R164). -/
def keyCheck (x : Reg) (s : State) : FaultRecord :=
  if (s.reg x).toNat > 15 then .keyIndexOutOfRange s.PC (s.reg x) else .none

/-- An instruction with an execute-stage check: it enters the fault and does nothing else (R168), or has its effect. -/
def guarded (check : FaultRecord) (s effect : State) : Result :=
  match check with
  | .none => .next effect
  | f => .next (s.raise f)

/-! ## Fetch (R42) -/

/-- Both bytes of the instruction at `PC` exist (R42). -/
def canFetch (s : State) : Bool := decide (s.PC.toNat ≤ Config.fetchMax)

/-- The word `{mem[PC], mem[PC + 1]}`, high byte first (R42). -/
def fetchWord (s : State) : Word := wordOfBytes (s.byte s.PC.toNat) (s.byte (s.PC.toNat + 1))

/-- The fault of a fetch past the end of memory (R42, R163). -/
def fetchFault (s : State) : FaultRecord := .addressOutOfRange s.PC (s.PC.toNat + 1)

/-- The word stored where the next `Step()` fetches it: at `PC`, or at 0x200 when nothing can be fetched at `PC`; the core running,
with no transition of another agent before the step. -/
def placeWord (s : State) (w : Word) : State :=
  let at' : State := { s with
    PC := if canFetch s then s.PC else BitVec.ofNat 16 Config.progBase
    run := .running
    fault := .none
    schedule := []
    later := .repeating [] }
  (at'.writeByte at'.PC.toNat (highByte w)).writeByte (at'.PC.toNat + 1) (lowByte w)

end Sys2Proof.Machine
end

