-- ==== Sys2Proof/Machine/ArithLogic.lean ====
section
/-! DEFINITION. Register load, arithmetic, logic, shift and random instructions (spec 40_arith_logic.md, R80 to R92). -/

namespace Sys2Proof.Machine

/-- `6xkk` (R81). -/
def execLdImm (x : Reg) (kk : Byte) (s : State) : Result := .next (s.setReg x kk).next

/-- `7xkk`: modulo 256, no flag (R82). -/
def execAddImm (x : Reg) (kk : Byte) (s : State) : Result := .next (s.setReg x (s.reg x + kk)).next

/-- `8xy0` (R83). -/
def execLdReg (x y : Reg) (s : State) : Result := .next (s.setReg x (s.reg y)).next

/-- `8xy1`; VF is not written (R84, D8). -/
def execOrReg (x y : Reg) (s : State) : Result := .next (s.setReg x (s.reg x ||| s.reg y)).next

/-- `8xy2`; VF is not written (R85, D8). -/
def execAndReg (x y : Reg) (s : State) : Result := .next (s.setReg x (s.reg x &&& s.reg y)).next

/-- `8xy3`; VF is not written (R86, D8). -/
def execXorReg (x y : Reg) (s : State) : Result := .next (s.setReg x (s.reg x ^^^ s.reg y)).next

/-- `8xy4` (R87). -/
def execAddReg (x y : Reg) (s : State) : Result :=
  .next (writeFlagged s x (carryFlag (s.reg x) (s.reg y)) (s.reg x + s.reg y)).next

/-- `8xy5` (R88). -/
def execSub (x y : Reg) (s : State) : Result :=
  .next (writeFlagged s x (minuendGreater (s.reg x) (s.reg y)) (s.reg x - s.reg y)).next

/-- `8xy6`: `V[x]` is shifted in place and the field `y` is ignored (R89, D7). -/
def execShr (x _y : Reg) (s : State) : Result :=
  .next (writeFlagged s x (shiftOutRight (s.reg x)) (s.reg x >>> 1)).next

/-- `8xy7` (R90). -/
def execSubn (x y : Reg) (s : State) : Result :=
  .next (writeFlagged s x (minuendGreater (s.reg y) (s.reg x)) (s.reg y - s.reg x)).next

/-- `8xyE`: `V[x]` is shifted in place and the field `y` is ignored (R91, D7). -/
def execShl (x _y : Reg) (s : State) : Result :=
  .next (writeFlagged s x (shiftOutLeft (s.reg x)) (s.reg x <<< 1)).next

/-- `Cxkk` for a given draw `r` (R92). -/
def randomEffect (x : Reg) (kk r : Byte) (s : State) : State := (s.setReg x (r &&& kk)).next

/-- `Cxkk`: each execution takes a fresh free byte (R92, D23, log entry 6). -/
def execRnd (x : Reg) (kk : Byte) (s : State) : Result :=
  .next { randomEffect x kk (Config.draw8 s.draws) s with draws := s.draws + 1 }

end Sys2Proof.Machine
end

