-- ==== Sys2Proof/Machine/ControlFlow.lean ====
section
/-! DEFINITION. Jumps, call, return and skips (spec 41_control_flow.md, R100 to R110). -/

namespace Sys2Proof.Machine

/-- `1nnn` (R100). -/
def execJp (nnn : Addr12) (s : State) : Result := .next (s.jump (zextAddr nnn))

/-- `2nnn`: it pushes `PC + 2` and jumps, or faults with 16 entries held (R101). -/
def execCall (nnn : Addr12) (s : State) : Result :=
  guarded (callCheck nnn s) s ((s.push (s.PC + 2)).jump (zextAddr nnn))

/-- `00EE`: the popped entry is the new PC, with no further increment, or the stack is empty and it faults (R102). -/
def execRet (s : State) : Result := guarded (retCheck s) s (s.pop.jump s.top)

/-- `Bnnn`: the 16-bit sum, not masked (R103, D29). -/
def execJpV0 (nnn : Addr12) (s : State) : Result := .next (s.jump (zextAddr nnn + zext16 (s.reg 0)))

/-- `3xkk` (R105). -/
def execSeImm (x : Reg) (kk : Byte) (s : State) : Result := .next (s.skip (s.reg x == kk))

/-- `4xkk` (R106). -/
def execSneImm (x : Reg) (kk : Byte) (s : State) : Result := .next (s.skip (s.reg x != kk))

/-- `5xy0` (R107). -/
def execSeReg (x y : Reg) (s : State) : Result := .next (s.skip (s.reg x == s.reg y))

/-- `9xy0` (R108). -/
def execSneReg (x y : Reg) (s : State) : Result := .next (s.skip (s.reg x != s.reg y))

/-- `Ex9E`: the level of the latch at this step (R109). -/
def execSkp (x : Reg) (s : State) : Result := guarded (keyCheck x s) s (s.skip (s.key (keyNumber s x)))

/-- `ExA1` (R110). -/
def execSknp (x : Reg) (s : State) : Result := guarded (keyCheck x s) s (s.skip (!s.key (keyNumber s x)))

end Sys2Proof.Machine
end

