-- ==== Sys2Proof/Machine/Display.lean ====
section
/-! DEFINITION. The display instructions (spec 43_display.md, R140 to R142). -/

namespace Sys2Proof.Machine

/-- `00E0`; it marks a redraw (R141, D15). -/
def execCls (s : State) : Result := .next ({ s with FB := blankFramebuffer, redrawPending := true } : State).next

/-- What a draw has done so far: the framebuffer, and whether a set cell has been flipped to unset. -/
structure DrawState where
  fb : Framebuffer
  collision : Bool
deriving DecidableEq, Repr

/-- XOR of one cell with 1: a collision when it was set (R142). -/
def flipCell (px : Fin 64) (py : Fin 32) (d : DrawState) : DrawState :=
  { fb := d.fb.set py (d.fb[py].set px (!d.fb[py][px])), collision := d.collision || d.fb[py][px] }

/-- One row of a sprite: the set bits of `b` at columns `x0`, `x0 + 1`, ... modulo 64 (R142). -/
def drawRow (b x0 : Byte) (py : Fin 32) (d : DrawState) : DrawState :=
  (List.range 8).foldl (fun d col => if spriteBit b col then flipCell (wrapX x0 col) py d else d) d

/-- A sprite of `n` rows read at `I`, with its corner at `(x0, y0)` (R142). -/
def drawSprite (s : State) (x0 y0 : Byte) (n : Nat) : DrawState :=
  (List.range n).foldl (fun d row => drawRow (s.byte (effAddr s row)) x0 (wrapY y0 row) d) ⟨s.FB, false⟩

/-- The effect of `Dxyn`: the coordinates are those of the state before, VF receives the collision flag (R142, D6). -/
def drawEffect (x y : Reg) (n : Nibble) (s : State) : State :=
  let d := drawSprite s (s.reg x) (s.reg y) n.toNat
  { s.setFlag d.collision with FB := d.fb, redrawPending := true }

/-- `Dxyn` (R142). -/
def execDrw (x y : Reg) (n : Nibble) (s : State) : Result := guarded (spanCheck n.toNat s) s (drawEffect x y n s).next

end Sys2Proof.Machine
end

