-- ==== Sys2Proof/Machine/IndexMemory.lean ====
section
/-! DEFINITION. The index register and the transfers through it (spec 42_index_memory.md, R120 to R126). None of them changes `I` but
the three that set it (R120, D9). -/

namespace Sys2Proof.Machine

/-- `Annn` (R121). -/
def execLdI (nnn : Addr12) (s : State) : Result := .next ({ s with I := zextAddr nnn } : State).next

/-- `Fx1E`: modulo 2^16, no flag (R122, D10). -/
def execAddI (x : Reg) (s : State) : Result := .next ({ s with I := s.I + zext16 (s.reg x) } : State).next

/-- The address of the glyph of a value, the whole byte used (R123). -/
def glyphAddr (p : Params) (v : Byte) : Word := BitVec.ofNat 16 (p.fontBase.val + Config.glyphBytes * v.toNat)

/-- `Fx29` (R123). -/
def execLdFont (x : Reg) (s : State) : Result := .next ({ s with I := glyphAddr s.params (s.reg x) } : State).next

/-- The three stores of `Fx33` (R124). -/
def storeDigits (s : State) (v : Byte) : State :=
  ((s.writeByte (effAddr s 0) (hundredsDigit v)).writeByte (effAddr s 1) (tensDigit v)).writeByte (effAddr s 2) (onesDigit v)

/-- `Fx33` (R124). -/
def execBcd (x : Reg) (s : State) : Result := guarded (spanCheck 3 s) s (storeDigits s (s.reg x)).next

/-- The stores of `Fx55`: V0 to Vx in ascending order at `I`, `I + 1`, ... (R125). -/
def storeRegs (s : State) (x : Reg) : State :=
  (regsUpTo x).foldl (fun t i => t.writeByte (effAddr t i.val) (t.reg i)) s

/-- `Fx55` (R125). -/
def execStRegs (x : Reg) (s : State) : Result := guarded (spanCheck (x.val + 1) s) s (storeRegs s x).next

/-- The loads of `Fx65`: V0 to Vx in ascending order from `I`, `I + 1`, ... (R126). -/
def loadRegs (s : State) (x : Reg) : State :=
  (regsUpTo x).foldl (fun t i => t.setReg i (t.byte (effAddr t i.val))) s

/-- `Fx65` (R126). -/
def execLdRegs (x : Reg) (s : State) : Result := guarded (spanCheck (x.val + 1) s) s (loadRegs s x).next

end Sys2Proof.Machine
end

