-- ==== Sys2Proof/Machine/TimersKeys.lean ====
section
/-! DEFINITION. Timer access and the key-wait (spec 44_timers_keys.md, R150 to R153). -/

namespace Sys2Proof.Machine

/-- `Fx07` (R150). -/
def execLdFromDT (x : Reg) (s : State) : Result := .next (s.setReg x s.DT).next

/-- `Fx15` (R151). -/
def execLdDT (x : Reg) (s : State) : Result := .next ({ s with DT := s.reg x } : State).next

/-- `Fx18` (R152). -/
def execLdST (x : Reg) (s : State) : Result := .next ({ s with ST := s.reg x } : State).next

/-- `Fx0A`: the core waits, with PC held; the wait ends at a `KeyDown` (R153, R172). -/
def execLdKey (x : Reg) (s : State) : Result := .next { s with run := .awaitingKey, waitReg := x }

end Sys2Proof.Machine
end

