-- ==== Sys2Proof/Machine/Events.lean ====
section
/-! DEFINITION. The transitions of the agents outside the executor (spec R171 to R174, R190, R191). -/

namespace Sys2Proof.Machine

/-- A timer after a tick: one less, and 0 stays 0 (R171). -/
def tickTimer (t : Byte) : Byte := if t.toNat > 0 then t - 1 else t

/-- `Tick60()`, in every run state (R171). -/
def tick60 (s : State) : State := { s with DT := tickTimer s.DT, ST := tickTimer s.ST }

/-- `KeyDown(k)`: the latch, and the resolution of a key-wait in the same transition (R172, conflict C2). -/
def keyDown (k : Key) (s : State) : State :=
  let latched := s.setKey k true
  if s.run = .awaitingKey then
    ({ latched.setReg s.waitReg (BitVec.ofNat 8 k.val) with run := .running } : State).next
  else latched

/-- `KeyUp(k)` (R173). -/
def keyUp (k : Key) (s : State) : State := s.setKey k false

/-- `Deliver()`: its effect on the state; what it hands out is `delivery` (R174). -/
def deliver (s : State) : State := if s.redrawPending then { s with redrawPending := false } else s

/-- `Reset()`, in any state: memory outside the font region and the key latch are not touched (R25, R190). -/
def resetMachine (s : State) : State :=
  { s with
    V := Vector.replicate 16 0
    I := 0
    PC := BitVec.ofNat 16 Config.progBase
    sp := 0
    stack := Vector.replicate 16 0
    DT := 0
    ST := 0
    mem := Memory.restoreFont s.params s.mem
    FB := blankFramebuffer
    run := .running
    waitReg := 0
    redrawPending := false
    fault := .none
    warn := false
    warnWord := 0
    warnPC := 0 }

/-- `LoadProgram(bytes)`: the image is copied to 0x200 and up, or is too large and nothing is loaded (R166, R191). -/
def loadProgram (bytes : List Byte) (s : State) : Result :=
  if bytes.length > Config.progMax then .fault (.imageTooLarge bytes.length)
  else .next { s with mem := Memory.writeList s.params s.mem Config.progBase bytes }

end Sys2Proof.Machine
end

