-- ==== Sys2Proof/Machine/Cycle.lean ====
section
/-! DEFINITION. `Step()` and the firing of any transition (spec R7, R8, R154, R165, R167, R168). -/

namespace Sys2Proof.Machine

/-- `Execute(ins)`: one instruction rule, or the report of the unknown word (R8, R165). -/
def execDecoded (d : Decoded) (s : State) : Result :=
  match d with
  | .instr i => exec i s
  | .unknown w => .next (s.warnUnknown w)

/-- `Step()`, its checks in the order of R167 (R8): a faulted core and a waiting core do nothing. -/
def cycle (s : State) : Result :=
  match s.run with
  | .faulted => .next s
  | .awaitingKey => .next s
  | .running => if canFetch s then execDecoded (decode (fetchWord s)) s else .next (s.raise (fetchFault s))

/-- One transition of R7. -/
def fire (t : Transition) (s : State) : Result :=
  match t with
  | .step => cycle s
  | .tick60 => .next (tick60 s)
  | .keyDown k => .next (keyDown k s)
  | .keyUp k => .next (keyUp k s)
  | .deliver => .next (deliver s)
  | .reset => .next (resetMachine s)
  | .loadProgram bytes => loadProgram bytes s

/-- The transition that the agents fire next, and the state it is fired in, which has it taken off: the head of the schedule, and after
the schedule what `later` says, without end; a free move is that of `source` (R7, R180). -/
def nextMoveFrom (source : Nat → Transition) (s : State) : Transition × State :=
  match s.schedule with
  | t :: rest => (t, { s with schedule := rest })
  | [] =>
    match s.later with
    | .repeating [] => (.step, s)
    | .repeating (t :: rest) => (t, { s with schedule := rest })
    | .free turn => (source turn, { s with later := .free (turn + 1) })

/-- One transition of the machine, the next that the agents fire, for a given source of free moves (R7, R180). -/
def fireNextFrom (source : Nat → Transition) (s : State) : Result := fire (nextMoveFrom source s).1 (nextMoveFrom source s).2

/-- The next move of the machine: its free moves are the free value `Config.agentMove`.
DESIGN CHOICE: any finite or infinite sequence of transitions is some state's (log entry 7). -/
def nextMove (s : State) : Transition × State := nextMoveFrom Config.agentMove s

/-- One transition of the machine (R7, R180). -/
def fireNext (s : State) : Result := fireNextFrom Config.agentMove s

end Sys2Proof.Machine
end

