-- ==== Sys2Proof/Machine/Step.lean ====
section
/-! DEFINITION. One step of the machine, and the placing of an instruction word where it is fetched (spec R7, R8, R42). -/

namespace Sys2Proof.Machine

/-- One transition of the machine (R7). -/
def step (s : State) : Host.Outcome State Fault Refusal := fireNext s

/-- The state with the instruction of `nbits` bits `w`, numbered as spec/opcode_table.json numbers them, stored where the next step
fetches it; every bit above `nbits` is 0. It stands for the load of a program from outside (log entry 17). -/
def State.withFetchWord (s : State) (nbits w : Nat) : State := placeWord s (BitVec.ofNat 16 (w % 2 ^ nbits))

end Sys2Proof.Machine
end

