-- ==== Sys2Proof/Machine/Executions.lean ====
section
/-! DEFINITION. Executions: finite and infinite sequences of transitions, and the two fairness assumptions for claims about termination
(spec R7, R180). -/

namespace Sys2Proof.Machine

/-- A finite sequence of transitions, fired in order; it ends where one of them stops (R180). -/
def fireAll (l : List Transition) (s : State) : Result :=
  match l with
  | [] => .next s
  | t :: rest =>
    match fire t s with
    | .next u => fireAll rest u
    | .fault f => .fault f
    | .refused r => .refused r

/-- An infinite sequence of transitions and the states between them: the `n`-th transition leads from the `n`-th state to the next.
Every such sequence is an execution of the machine (R180). -/
def IsExecution (states : Nat → State) (moves : Nat → Transition) : Prop :=
  ∀ n, fire (moves n) (states n) = .next (states (n + 1))

/-- The first fairness assumption: a machine that is `Running` is eventually stepped (R180). -/
def RunningIsStepped (states : Nat → State) (moves : Nat → Transition) : Prop :=
  ∀ n, (states n).run = .running → ∃ m, n ≤ m ∧ moves m = .step

/-- The second fairness assumption: ticks keep coming (R180). -/
def TicksKeepComing (moves : Nat → Transition) : Prop := ∀ n, ∃ m, n ≤ m ∧ moves m = .tick60

/-- The machine without the model's record of who moves next. -/
def State.bare (s : State) : State := { s with schedule := [], later := .repeating [] }

/-- An infinite run of the model, for a given source of free moves: every step answers the next state. -/
def IsRun (source : Nat → Transition) (states : Nat → State) : Prop :=
  ∀ n, fireNextFrom source (states n) = .next (states (n + 1))

/-- The transitions that a run fires, one for each step. -/
def movesOf (source : Nat → Transition) (states : Nat → State) (n : Nat) : Transition := (nextMoveFrom source (states n)).1

end Sys2Proof.Machine
end

