-- ==== Sys2Proof/Machine/Outputs.lean ====
section
/-! DEFINITION. What the machine hands out, as functions of the state: the outcome of a `Step()`, the snapshot of a `Deliver()`, the
tone (spec R8, R13, R160, R174, R176). -/

namespace Sys2Proof.Machine

/-- The PC directive of an instruction (R8). -/
inductive Directive where
  | plus2
  | plus4
  | jump (target : Word)
  | hold
deriving DecidableEq, Repr

/-- What a directive makes of PC (R8, R13). -/
def Directive.apply (d : Directive) (pc : Word) : Word :=
  match d with
  | .plus2 => pc + 2
  | .plus4 => pc + 4
  | .jump target => target
  | .hold => pc

/-- The directive of a skip (R104). -/
def skipDirective (cond : Bool) : Directive := if cond then .plus4 else .plus2

/-- The directive of an instruction that does not fault (R13). -/
def directive (i : Instr) (s : State) : Directive :=
  match i with
  | .jp nnn => .jump (zextAddr nnn)
  | .call nnn => .jump (zextAddr nnn)
  | .ret => .jump s.top
  | .jpV0 nnn => .jump (zextAddr nnn + zext16 (s.reg 0))
  | .seImm x kk => skipDirective (s.reg x == kk)
  | .sneImm x kk => skipDirective (s.reg x != kk)
  | .seReg x y => skipDirective (s.reg x == s.reg y)
  | .sneReg x y => skipDirective (s.reg x != s.reg y)
  | .skp x => skipDirective (s.key (keyNumber s x))
  | .sknp x => skipDirective (!s.key (keyNumber s x))
  | .ldKey _ => .hold
  | .cls => .plus2
  | .ldImm _ _ => .plus2
  | .addImm _ _ => .plus2
  | .ldReg _ _ => .plus2
  | .orReg _ _ => .plus2
  | .andReg _ _ => .plus2
  | .xorReg _ _ => .plus2
  | .addReg _ _ => .plus2
  | .sub _ _ => .plus2
  | .shr _ _ => .plus2
  | .subn _ _ => .plus2
  | .shl _ _ => .plus2
  | .ldI _ => .plus2
  | .rnd _ _ => .plus2
  | .drw _ _ _ => .plus2
  | .ldFromDT _ => .plus2
  | .ldDT _ => .plus2
  | .ldST _ => .plus2
  | .addI _ => .plus2
  | .ldFont _ => .plus2
  | .bcd _ => .plus2
  | .stRegs _ => .plus2
  | .ldRegs _ => .plus2

/-- The execute-stage check of an instruction, `none` where it has none or passes it (R167). -/
def executeCheck (i : Instr) (s : State) : FaultRecord :=
  match i with
  | .call nnn => callCheck nnn s
  | .ret => retCheck s
  | .drw _ _ n => spanCheck n.toNat s
  | .bcd _ => spanCheck 3 s
  | .stRegs x => spanCheck (x.val + 1) s
  | .ldRegs x => spanCheck (x.val + 1) s
  | .skp x => keyCheck x s
  | .sknp x => keyCheck x s
  | .cls => .none
  | .jp _ => .none
  | .seImm _ _ => .none
  | .sneImm _ _ => .none
  | .seReg _ _ => .none
  | .ldImm _ _ => .none
  | .addImm _ _ => .none
  | .ldReg _ _ => .none
  | .orReg _ _ => .none
  | .andReg _ _ => .none
  | .xorReg _ _ => .none
  | .addReg _ _ => .none
  | .sub _ _ => .none
  | .shr _ _ => .none
  | .subn _ _ => .none
  | .shl _ _ => .none
  | .sneReg _ _ => .none
  | .ldI _ => .none
  | .jpV0 _ => .none
  | .rnd _ _ => .none
  | .ldFromDT _ => .none
  | .ldKey _ => .none
  | .ldDT _ => .none
  | .ldST _ => .none
  | .addI _ => .none
  | .ldFont _ => .none

/-- `StepOutcome` (R8, D2): `Ok` with its directive, `Hold`, `Warning(UnknownInstruction, w, pc)` or `Faulted(cause)`. -/
inductive StepOutcome where
  | ok (d : Directive)
  | hold
  | warning (w pc : Word)
  | faulted (f : FaultRecord)
deriving DecidableEq, Repr

/-- The outcome of an instruction: the fault it raises, or its directive, `hold` being `Hold` (R8). -/
def instrOutcome (i : Instr) (s : State) : StepOutcome :=
  match executeCheck i s with
  | .none =>
    match directive i s with
    | .hold => .hold
    | d => .ok d
  | f => .faulted f

/-- What `Step()` returns from a state (R8, R154, R165, R168). -/
def stepOutcome (s : State) : StepOutcome :=
  match s.run with
  | .faulted => .faulted s.fault
  | .awaitingKey => .hold
  | .running =>
    if canFetch s then
      match decode (fetchWord s) with
      | .instr i => instrOutcome i s
      | .unknown w => .warning w s.PC
    else .faulted (fetchFault s)

/-- The numeric cause code of a fault (R160, D3). -/
def FaultRecord.code : FaultRecord → Nat
  | .none => 0
  | .stackOverflow _ _ => 1
  | .stackUnderflow _ => 2
  | .addressOutOfRange _ _ => 3
  | .keyIndexOutOfRange _ _ => 4

/-- The address of the instruction that faulted, where there is one (R160). -/
def FaultRecord.pc? : FaultRecord → Option Word
  | .none => Option.none
  | .stackOverflow pc _ => some pc
  | .stackUnderflow pc => some pc
  | .addressOutOfRange pc _ => some pc
  | .keyIndexOutOfRange pc _ => some pc

/-- The framebuffer snapshot that a `Deliver()` in this state hands to the render adapter, if it hands one (R174). -/
def delivery (s : State) : Option Framebuffer := if s.redrawPending then some s.FB else none

/-- `tone = (ST > 0)`, the output to the audio adapter (R176). -/
def tone (s : State) : Bool := decide (s.ST.toNat > 0)

end Sys2Proof.Machine
end

