-- ==== Sys2Proof/Safety.lean ====
section
/-! DEFINITION. What counts as a safe run, how a run ends, and the invariant of the machine (spec R13, R14, R20, R22, R165, R168, R194). -/

namespace Sys2Proof.Machine

/-- No fault has stopped the core and no unknown word has been met (R165, R168): both are sticky, so the end of a run shows it. -/
def State.clean (s : State) : Bool := decide (s.run ≠ .faulted) && !s.warn

/-- The core stands at a jump to its own address: the successful end of a run (R194(a)). -/
def State.idle (s : State) : Prop :=
  s.run = .running ∧ canFetch s = true ∧ ∃ nnn, decode (fetchWord s) = .instr (.jp nnn) ∧ zextAddr nnn = s.PC

/-- The run has failed (R194(b)). -/
def State.failed (s : State) : Prop := s.run = .faulted

/-- The core waits for a key: a stall, not an end (R194(c)). -/
def State.stalled (s : State) : Prop := s.run = .awaitingKey

/-- The invariant of the machine: what holds of every state that a run reaches. -/
structure Inv (s : State) : Prop where
  /-- memory is in canonical form -/
  memWf : Memory.wf s.params s.mem = true
  /-- the bound on PC of R13 -/
  pcBound : s.PC.toNat ≤ 0x10FE
  /-- a waiting core stands at an instruction it fetched (R20, R42) -/
  waitFetched : s.run = .awaitingKey → s.PC.toNat ≤ Config.fetchMax
  /-- a return address is at most 4096 (R101) -/
  stackBound : ∀ j : Fin 16, j.val < s.sp.val → s.stack[j].toNat ≤ Config.memSize
  /-- the core is faulted exactly when a fault is recorded (R22, R168) -/
  faultRecorded : s.run = .faulted ↔ s.fault ≠ .none
  /-- a recorded fault names the PC, which the fault left at the faulting instruction (R168) -/
  faultPC : ∀ pc, s.fault.pc? = some pc → pc = s.PC

/-- The general registers an instruction may write: its destination, and VF for the six flag writers of R11. -/
def mayWrite (i : Instr) (r : Reg) : Bool :=
  match i with
  | .ldImm x _ => r == x
  | .addImm x _ => r == x
  | .ldReg x _ => r == x
  | .orReg x _ => r == x
  | .andReg x _ => r == x
  | .xorReg x _ => r == x
  | .addReg x _ => r == x || r == flagReg
  | .sub x _ => r == x || r == flagReg
  | .shr x _ => r == x || r == flagReg
  | .subn x _ => r == x || r == flagReg
  | .shl x _ => r == x || r == flagReg
  | .rnd x _ => r == x
  | .drw _ _ _ => r == flagReg
  | .ldFromDT x => r == x
  | .ldRegs x => decide (r ≤ x)
  | .cls => false
  | .ret => false
  | .jp _ => false
  | .call _ => false
  | .seImm _ _ => false
  | .sneImm _ _ => false
  | .seReg _ _ => false
  | .sneReg _ _ => false
  | .ldI _ => false
  | .jpV0 _ => false
  | .skp _ => false
  | .sknp _ => false
  | .ldKey _ => false
  | .ldDT _ => false
  | .ldST _ => false
  | .addI _ => false
  | .ldFont _ => false
  | .bcd _ => false
  | .stRegs _ => false

/-- The address is one an instruction stores to: `I`, `I + 1`, `I + 2` for `Fx33`, `I` to `I + x` for `Fx55`, none for any other
(R40, R124, R125), the addresses formed as the meaning forms them. -/
def storesTo (i : Instr) (s : State) (a : Nat) : Prop :=
  match i with
  | .bcd _ => effAddr s 0 ≤ a ∧ a ≤ effAddr s 2
  | .stRegs x => effAddr s 0 ≤ a ∧ a ≤ effAddr s x.val
  | .ldImm _ _ => False
  | .addImm _ _ => False
  | .ldReg _ _ => False
  | .orReg _ _ => False
  | .andReg _ _ => False
  | .xorReg _ _ => False
  | .addReg _ _ => False
  | .sub _ _ => False
  | .shr _ _ => False
  | .subn _ _ => False
  | .shl _ _ => False
  | .rnd _ _ => False
  | .drw _ _ _ => False
  | .ldFromDT _ => False
  | .ldRegs _ => False
  | .cls => False
  | .ret => False
  | .jp _ => False
  | .call _ => False
  | .seImm _ _ => False
  | .sneImm _ _ => False
  | .seReg _ _ => False
  | .sneReg _ _ => False
  | .ldI _ => False
  | .jpV0 _ => False
  | .skp _ => False
  | .sknp _ => False
  | .ldKey _ => False
  | .ldDT _ => False
  | .ldST _ => False
  | .addI _ => False
  | .ldFont _ => False

/-- A set bit of the sprite of `n` rows at `I`, drawn with its corner at `(x0, y0)`, falls on the cell `(px, py)` (R140, R142). -/
def spriteCovers (s : State) (x0 y0 : Byte) (n : Nat) (px : Fin 64) (py : Fin 32) : Prop :=
  ∃ row col : Nat, row < n ∧ col < 8 ∧ (x0.toNat + col) % 64 = px.val ∧ (y0.toNat + row) % 32 = py.val ∧
    (s.byte (effAddr s row)).getLsbD (7 - col) = true

end Sys2Proof.Machine
end

