-- ==== Sys2Proof/WellFormed.lean ====
section
/-! DEFINITION. Well-formedness: of an instruction written with unchecked operand numbers, and of a program image
(spec R61, R63, R67, R69, R166). -/

namespace Sys2Proof

/-- Operand numbers as an assembler reads them, before they are known to fit their fields (R61). -/
inductive RawOperand where
  /-- a register number for a field `x` or `y` -/
  | reg (n : Nat)
  /-- an immediate for the field `kk` -/
  | imm8 (n : Nat)
  /-- an address for the field `nnn` -/
  | addr (n : Nat)
  /-- a row count for the field `n` of `Dxyn` -/
  | rows (n : Nat)
deriving DecidableEq, Repr

/-- The number fits the field (the widths of R61, the ranges of R63). -/
def RawOperand.wellFormed : RawOperand → Bool
  | .reg n => n < 16
  | .imm8 n => n < 256
  | .addr n => n < 4096
  | .rows n => n < 16

/-- The operands of an instruction as numbers. -/
def Instr.operands : Instr → List RawOperand
  | .cls => []
  | .ret => []
  | .jp nnn => [.addr nnn.toNat]
  | .call nnn => [.addr nnn.toNat]
  | .seImm x kk => [.reg x.val, .imm8 kk.toNat]
  | .sneImm x kk => [.reg x.val, .imm8 kk.toNat]
  | .seReg x y => [.reg x.val, .reg y.val]
  | .ldImm x kk => [.reg x.val, .imm8 kk.toNat]
  | .addImm x kk => [.reg x.val, .imm8 kk.toNat]
  | .ldReg x y => [.reg x.val, .reg y.val]
  | .orReg x y => [.reg x.val, .reg y.val]
  | .andReg x y => [.reg x.val, .reg y.val]
  | .xorReg x y => [.reg x.val, .reg y.val]
  | .addReg x y => [.reg x.val, .reg y.val]
  | .sub x y => [.reg x.val, .reg y.val]
  | .shr x y => [.reg x.val, .reg y.val]
  | .subn x y => [.reg x.val, .reg y.val]
  | .shl x y => [.reg x.val, .reg y.val]
  | .sneReg x y => [.reg x.val, .reg y.val]
  | .ldI nnn => [.addr nnn.toNat]
  | .jpV0 nnn => [.addr nnn.toNat]
  | .rnd x kk => [.reg x.val, .imm8 kk.toNat]
  | .drw x y n => [.reg x.val, .reg y.val, .rows n.toNat]
  | .skp x => [.reg x.val]
  | .sknp x => [.reg x.val]
  | .ldFromDT x => [.reg x.val]
  | .ldKey x => [.reg x.val]
  | .ldDT x => [.reg x.val]
  | .ldST x => [.reg x.val]
  | .addI x => [.reg x.val]
  | .ldFont x => [.reg x.val]
  | .bcd x => [.reg x.val]
  | .stRegs x => [.reg x.val]
  | .ldRegs x => [.reg x.val]

/-- Every operand fits its field. The fields of `Instr` are typed at their width, so this holds of every
instruction, as R67 says of every field value. -/
def Instr.wellFormed (i : Instr) : Bool := i.operands.all RawOperand.wellFormed

/-- A program image is loadable when it fits between 0x200 and the end of memory (R69, R166, R191). -/
def imageWellFormed (bytes : List Byte) : Bool := bytes.length ≤ Config.progMax

end Sys2Proof
end

