-- ==== Sys2Proof/Certificates/Slice0/Obligations.lean ====
section
/-! DEFINITION. The statements for the provers. A statement about what an instruction does gives the whole next state, written as the
state before with the elements the spec says are written, so that its frame stands in it. -/

open Sys2Proof Sys2Proof.Machine

/-! ## Encoding (30_encoding.md) -/

/-- R64, R65, R67: every instruction is well formed, its word decodes to it with every operand, and so do its two bytes, high byte
first (R60), whatever follows them. -/
def Obligations.DecodeEncodeRoundTrip : Prop :=
  ∀ i : Instr, i.wellFormed = true ∧ decode (encode i) = .instr i ∧
    ∀ rest, decodeBytes (encodeBytes i ++ rest) = .ok (i, rest)

/-- R61, R64: a word that decodes to an instruction is the word of that instruction, so that decoding drops no bit. -/
def Obligations.EncodeDecodeRoundTrip : Prop :=
  ∀ (w : Word) (i : Instr), decode w = .instr i → encode i = w

/-- R64 against R65: a word is unknown exactly when it selects no row of the opcode table, and a word that decodes to an
instruction selects that instruction's row and no other (the rows are disjoint). -/
def Obligations.DecodeAgreesWithOpcodeTable : Prop :=
  ∀ w : Word,
    (decode w = .unknown w ↔ ∀ r ∈ opcodeTable, r.selects w = false) ∧
    (∀ v, decode w = .unknown v → v = w) ∧
    (∀ i, decode w = .instr i → rowOf i ∈ opcodeTable ∧ (rowOf i).selects w = true ∧
      ∀ r ∈ opcodeTable, r.selects w = true → r = rowOf i)

/-- The table of R66: the unknown words, group by group. -/
def Obligations.UnknownSpaceByGroup : Prop :=
  ∀ w : Word, decode w = .unknown w ↔
    (opField w = 0x0#4 ∧ nnnField w ≠ 0x0E0#12 ∧ nnnField w ≠ 0x0EE#12) ∨
    (opField w = 0x5#4 ∧ nField w ≠ 0#4) ∨
    (opField w = 0x8#4 ∧ nField w ∈ [0x8#4, 0x9#4, 0xA#4, 0xB#4, 0xC#4, 0xD#4, 0xF#4]) ∨
    (opField w = 0x9#4 ∧ nField w ≠ 0#4) ∨
    (opField w = 0xE#4 ∧ kkField w ∉ [0x9E#8, 0xA1#8]) ∨
    (opField w = 0xF#4 ∧
      kkField w ∉ [0x07#8, 0x0A#8, 0x15#8, 0x18#8, 0x1E#8, 0x29#8, 0x33#8, 0x55#8, 0x65#8])

/-- The worked words of R70 and of the vectors TE1, TE2, TE8, TE10 of 95_test_vectors.md. -/
def Obligations.WorkedWordsDecode : Prop :=
  decode 0x8AB4#16 = .instr (.addReg 0xA 0xB) ∧
  decode 0xD125#16 = .instr (.drw 1 2 5#4) ∧
  decode 0x3C7F#16 = .instr (.seImm 0xC 0x7F#8) ∧
  decode 0x2ABC#16 = .instr (.call 0xABC#12) ∧
  decode 0xF30A#16 = .instr (.ldKey 3) ∧
  decode 0xF31F#16 = .unknown 0xF31F#16 ∧
  decode 0x5120#16 = .instr (.seReg 1 2) ∧
  decode 0x5121#16 = .unknown 0x5121#16 ∧
  decode 0x00E0#16 = .instr .cls ∧
  decode 0x00EE#16 = .instr .ret ∧
  decode 0xEFA1#16 = .instr (.sknp 0xF) ∧
  decode 0xF075#16 = .unknown 0xF075#16

/-! ## One step (00_scope.md, 20_memory.md, 60_exceptions.md) -/

/-- R8: when the core runs, the word at `PC` can be fetched and its two bytes, high byte first (R42), decode to an instruction, a step
that fires `Step()` is that instruction's execution: on the whole state when no other agent has a move, and else on the state with
the fired move taken off the record of moves (that record is the model's own, log entry 7). -/
def Obligations.StepRunsDecodedInstruction : Prop :=
  ∀ (s : State) (i : Instr), s.run = .running → s.PC.toNat ≤ 4094 →
    decodeBytes [s.byte s.PC.toNat, s.byte (s.PC.toNat + 1)] = .ok (i, []) →
    (s.schedule = [] → s.later = .repeating [] → step s = exec i s) ∧
    (∀ rest, s.schedule = .step :: rest → step s = exec i { s with schedule := rest }) ∧
    ((nextMove s).1 = .step → step s = exec i (nextMove s).2)

/-- R165: an unknown word that a running core's `Step()` fetches, one of group 0x0 included, is reported and passed over, and nothing
else changes; the outcome is the warning. The uniform policy is the spec's resolution of conflict C3 (its decision D13). -/
def Obligations.UnknownWordWarnsAndAdvances : Prop :=
  ∀ (s : State) (w : Word), s.run = .running → s.PC.toNat ≤ 4094 →
    decodeBytes [s.byte s.PC.toNat, s.byte (s.PC.toNat + 1)] = .error (.unknownInstruction w) →
    fire .step s = .next { s with warn := true, warnWord := w, warnPC := s.PC, PC := s.PC + 2 } ∧
    stepOutcome s = .warning w s.PC

/-- R42, R163(a), R168: a `Step()` of a running core with `PC` above 4094 faults and changes nothing else, also at 4095 (the spec's
decision D25). -/
def Obligations.FetchPastMemoryFaults : Prop :=
  ∀ s : State, s.run = .running → s.PC.toNat > 4094 →
    fire .step s = .next { s with run := .faulted, fault := .addressOutOfRange s.PC (s.PC.toNat + 1) } ∧
    stepOutcome s = .faulted (.addressOutOfRange s.PC (s.PC.toNat + 1))

/-- R154, R153, R172: executing `Fx0A` enters the wait, and nothing else does. A `Step()` of a waiting core changes nothing and its
outcome is `Hold`. The wait is left only by a key-down, which latches the key, writes it into the target register and advances PC
by 2 at once, or by `Reset()`. That PC advances at the key-down is the spec's decision D14 (conflict C2, log entry 23). -/
def Obligations.WaitingCoreHolds : Prop :=
  (∀ (s : State) (x : Reg), ∃ u, exec (.ldKey x) s = .next u ∧ u.run = .awaitingKey ∧ u.waitReg = x) ∧
  (∀ s : State, s.run = .awaitingKey →
    fire .step s = .next s ∧
    stepOutcome s = .hold ∧
    (∀ t u, fire t s = .next u → u.run ≠ .awaitingKey → t = .reset ∨ ∃ k, t = .keyDown k) ∧
    (∀ k : Key, fire (.keyDown k) s = .next { s with
      keys := s.keys.set k true
      V := s.V.set s.waitReg (BitVec.ofNat 8 k.val)
      run := .running
      PC := s.PC + 2 }) ∧
    (∃ u, fire .reset s = .next u ∧ u.run = .running)) ∧
  (∀ (i : Instr) (s u : State), s.run = .running → exec i s = .next u → u.run = .awaitingKey →
    ∃ x, i = .ldKey x ∧ u.waitReg = x) ∧
  (∀ (t : Transition) (s u : State), s.run = .running → fire t s = .next u → u.run = .awaitingKey →
    t = .step ∧ ∃ x, decode (fetchWord s) = .instr (.ldKey x) ∧ u.waitReg = x)

/-- R168: a faulted core stays faulted. A `Step()` of it changes nothing and answers the same fault; no transition but `Reset()`
touches its run state, fault, PC, registers, stack, framebuffer or waiting register; a `LoadProgram` touches memory and nothing
else, and it is the only one of them that touches memory. The sticky state is the spec's decision D2 (log entry 8). -/
def Obligations.FaultedCoreStaysFaulted : Prop :=
  ∀ s : State, s.run = .faulted →
    fire .step s = .next s ∧
    stepOutcome s = .faulted s.fault ∧
    (∀ t u, fire t s = .next u → t ≠ .reset →
      u = { s with DT := u.DT, ST := u.ST, keys := u.keys, redrawPending := u.redrawPending, mem := u.mem } ∧
      ((∀ bytes, t ≠ .loadProgram bytes) → u.mem = s.mem)) ∧
    (∀ bytes u, fire (.loadProgram bytes) s = .next u → u = { s with mem := u.mem }) ∧
    (∃ u, fire .reset s = .next u ∧ u.run = .running ∧ u.fault = .none)

/-- R8, R22: a fault or a warning that a `Step()` reports is never lost: the next state records it, and the outcome of a running core is
a fault exactly when the next state is faulted with that record; a directive it reports is what PC does, the core running on; a hold
is a core that waits, PC held. -/
def Obligations.OutcomesAreRecorded : Prop :=
  ∀ s t : State, s.run = .running → fire .step s = .next t →
    (∀ f, stepOutcome s = .faulted f ↔ t.run = .faulted ∧ t.fault = f) ∧
    (∀ w pc, stepOutcome s = .warning w pc → t.warn = true ∧ t.warnWord = w ∧ t.warnPC = pc) ∧
    (∀ d, stepOutcome s = .ok d → t.PC = d.apply s.PC ∧ t.run = .running) ∧
    (stepOutcome s = .hold → t.run = .awaitingKey ∧ t.PC = s.PC)

/-- R194(a): at a jump to its own address a `Step()` leaves all state unchanged. -/
def Obligations.IdleLoopStands : Prop :=
  ∀ s : State, s.idle → fire .step s = .next s

/-- The model stops nowhere but at a `LoadProgram` of too large an image (R166): no instruction ends in a fault or a refusal of the
model, and a step stops only when such a load is the transition it fires. -/
def Obligations.OnlyOversizedLoadStops : Prop :=
  (∀ (i : Instr) (s : State), ∃ t, exec i s = .next t) ∧
  (∀ s f, step s = .fault f → ∃ bytes, (nextMove s).1 = .loadProgram bytes ∧
    bytes.length > 3584 ∧ f = .imageTooLarge bytes.length) ∧
  (∀ s r, step s ≠ .refused r)

/-! ## Reset, load and the events (70_reset_and_hazards.md, 60_exceptions.md) -/

/-- R25, R26: the reset state, every one of the 80 bytes of the fontset included. Outside the font region every byte is the free value
of `MEM_INIT` (R197, log entry 1). The all-up key latch, the fontset's address and bytes, which the spec leaves open with these defaults, and the
record of moves are the model's choices (log entries 2, 3, 4, 5 and 7). -/
def Obligations.ResetStateValues : Prop :=
  (∀ r : Reg, State.reset.V[r] = 0#8) ∧ State.reset.I = 0#16 ∧ State.reset.PC = 0x200#16 ∧ State.reset.sp = 0 ∧
  (∀ j : Fin 16, State.reset.stack[j] = 0#16) ∧ State.reset.DT = 0#8 ∧ State.reset.ST = 0#8 ∧
  (∀ (px : Fin 64) (py : Fin 32), State.reset.cell px py = false) ∧
  State.reset.run = .running ∧ State.reset.waitReg = 0 ∧ State.reset.redrawPending = false ∧
  State.reset.fault = .none ∧ State.reset.warn = false ∧ State.reset.warnWord = 0#16 ∧ State.reset.warnPC = 0#16 ∧
  (∀ k : Key, State.reset.keys[k] = false) ∧ State.reset.mem = [] ∧ State.reset.schedule = [] ∧
  State.reset.later = .repeating [] ∧
  State.reset.params.fontBase.val = 0 ∧
  (List.range 80).map State.reset.byte =
      [0xF0#8, 0x90#8, 0x90#8, 0x90#8, 0xF0#8] ++ [0x20#8, 0x60#8, 0x20#8, 0x20#8, 0x70#8] ++
      [0xF0#8, 0x10#8, 0xF0#8, 0x80#8, 0xF0#8] ++ [0xF0#8, 0x10#8, 0xF0#8, 0x10#8, 0xF0#8] ++
      [0x90#8, 0x90#8, 0xF0#8, 0x10#8, 0x10#8] ++ [0xF0#8, 0x80#8, 0xF0#8, 0x10#8, 0xF0#8] ++
      [0xF0#8, 0x80#8, 0xF0#8, 0x90#8, 0xF0#8] ++ [0xF0#8, 0x10#8, 0x20#8, 0x40#8, 0x40#8] ++
      [0xF0#8, 0x90#8, 0xF0#8, 0x90#8, 0xF0#8] ++ [0xF0#8, 0x90#8, 0xF0#8, 0x10#8, 0xF0#8] ++
      [0xF0#8, 0x90#8, 0xF0#8, 0x90#8, 0x90#8] ++ [0xE0#8, 0x90#8, 0xE0#8, 0x90#8, 0xE0#8] ++
      [0xF0#8, 0x80#8, 0x80#8, 0x80#8, 0xF0#8] ++ [0xE0#8, 0x90#8, 0x90#8, 0x90#8, 0xE0#8] ++
      [0xF0#8, 0x80#8, 0xF0#8, 0x80#8, 0xF0#8] ++ [0xF0#8, 0x80#8, 0xF0#8, 0x80#8, 0x80#8] ∧
  (∀ a, 80 ≤ a → State.reset.byte a = Config.memInit a)

/-- R190, R25: `Reset()` from any state: every element of the table of R25 at its value, the fontset in place, every other byte of
memory and the key latch as before (the spec's decisions D16, D17). -/
def Obligations.ResetFromAnyState : Prop :=
  ∀ s : State, ∃ t, fire .reset s = .next t ∧
    t = { State.reset with
          mem := t.mem, keys := s.keys, params := s.params, draws := s.draws, schedule := s.schedule,
          later := s.later } ∧
    (∀ j < 80, t.byte (s.params.fontBase.val + j) =
      (s.params.fontTable[j / 5 % 16]'(Nat.mod_lt _ (by decide)))[j % 5]'(Nat.mod_lt _ (by decide))) ∧
    (∀ a, a < s.params.fontBase.val ∨ s.params.fontBase.val + 80 ≤ a → t.byte a = s.byte a)

/-- R192, R193: the launch state. `Reset()` and a load of at most 3584 bytes, in either order from any state, leave the same
registers and the same memory: the image from 0x200, the fontset at `FONT_BASE`, every other byte as it was. -/
def Obligations.LaunchStateInEitherOrder : Prop :=
  ∀ (s : State) (bytes : List Byte), bytes.length ≤ 3584 →
    ∃ r t u v, fire .reset s = .next r ∧ fire (.loadProgram bytes) r = .next t ∧
      fire (.loadProgram bytes) s = .next u ∧ fire .reset u = .next v ∧
      v = { t with mem := v.mem } ∧ t = { r with mem := t.mem } ∧
      (∀ a, v.byte a = t.byte a) ∧
      (∀ (j : Nat) (h : j < bytes.length), t.byte (0x200 + j) = bytes[j]) ∧
      (∀ j < 80, t.byte (s.params.fontBase.val + j) = fontByte s.params j) ∧
      (∀ a, (a < s.params.fontBase.val ∨ s.params.fontBase.val + 80 ≤ a) →
        (a < 0x200 ∨ 0x200 + bytes.length ≤ a) → t.byte a = s.byte a)

/-- R191, R166: an image of at most 3584 bytes is copied verbatim to 0x200 and up and nothing but memory changes; a longer one is
refused with its length (the model stops there: log entry 16). -/
def Obligations.LoadProgramCopiesImage : Prop :=
  ∀ (s : State) (bytes : List Byte),
    (bytes.length ≤ 3584 → ∃ t, fire (.loadProgram bytes) s = .next t ∧ t = { s with mem := t.mem } ∧
      (∀ (j : Nat) (h : j < bytes.length), t.byte (0x200 + j) = bytes[j]) ∧
      (∀ a, a < 0x200 ∨ 0x200 + bytes.length ≤ a → t.byte a = s.byte a)) ∧
    (bytes.length > 3584 → fire (.loadProgram bytes) s = .fault (.imageTooLarge bytes.length))

/-- R171: a tick takes one from each timer that is not 0, in every run state, and changes nothing else; the tone after it is on exactly
when `ST` was above 1. R180: in an execution in which ticks keep coming, a delay timer that no `Fx15` writes any more comes to 0 and
stays there. -/
def Obligations.TickDecrementsTimers : Prop :=
  (∀ s : State, ∃ t, fire .tick60 s = .next t ∧ t = { s with DT := t.DT, ST := t.ST } ∧
    t.DT.toNat = s.DT.toNat - 1 ∧ t.ST.toNat = s.ST.toNat - 1 ∧ (tone t = true ↔ s.ST.toNat > 1)) ∧
  (∀ (states : Nat → State) (moves : Nat → Transition), IsExecution states moves → TicksKeepComing moves →
    ∀ n, (∀ m, n ≤ m → moves m = .step → (states m).run = .running →
      ∀ x, decode (fetchWord (states m)) ≠ .instr (.ldDT x)) →
    ∃ m, n ≤ m ∧ ∀ k, m ≤ k → (states k).DT = 0#8)

/-- R172: a key-down latches its key; it resolves a key-wait in the same transition, and in the other run states does nothing else
(the spec's decision D14, conflict C2). -/
def Obligations.KeyDownResolvesWait : Prop :=
  ∀ (s : State) (k : Key),
    (s.run = .awaitingKey → fire (.keyDown k) s = .next { s with
      keys := s.keys.set k true
      V := s.V.set s.waitReg (BitVec.ofNat 8 k.val)
      run := .running
      PC := s.PC + 2 }) ∧
    (s.run ≠ .awaitingKey → fire (.keyDown k) s = .next { s with keys := s.keys.set k true })

/-- R173: `KeyUp(k)` clears the latch of its key; nothing else changes in any run state, so it never resolves a key-wait. -/
def Obligations.KeyUpOnlyClearsLatch : Prop :=
  ∀ (s : State) (k : Key), ∃ t, fire (.keyUp k) s = .next t ∧ t = { s with keys := t.keys } ∧
    t.keys[k] = false ∧ (∀ j : Key, j ≠ k → t.keys[j] = s.keys[j]) ∧ t.run = s.run

/-- R174: a delivery hands out the framebuffer exactly when a redraw is pending, clears the mark, and leaves all else; a second one
then hands out nothing. -/
def Obligations.DeliverClearsRedraw : Prop :=
  ∀ s : State, ∃ t, fire .deliver s = .next t ∧ t = { s with redrawPending := false } ∧
    (s.redrawPending = true → delivery s = some s.FB) ∧ (s.redrawPending = false → delivery s = none) ∧
    delivery t = none ∧ fire .deliver t = .next t

/-- R7, R180: any finite or infinite sequence of transitions is an execution, and every execution is a run of the model. A step fires the
head of the schedule, then what `later` says, over and over or free; a finite sequence put into the schedule runs as it fires; an
infinite one is a run when the free moves are it; what a run fires is an execution. A repeating period with a tick and a step in it
makes ticks keep coming and steps too; and in an execution in which a running machine is eventually stepped, the instruction at
which a running core stands is eventually stepped, unless a reset or a load comes first. The record of moves is the model's own
(log entry 7). -/
def Obligations.ScheduleHeadFires : Prop :=
  (∀ (s : State) (t : Transition) (rest : List Transition), s.schedule = t :: rest →
    step s = fire t { s with schedule := rest }) ∧
  (∀ (s : State) (t : Transition) (rest : List Transition), s.schedule = [] → s.later = .repeating (t :: rest) →
    step s = fire t { s with schedule := rest }) ∧
  (∀ s : State, s.schedule = [] → s.later = .repeating [] → step s = fire .step s) ∧
  (∀ (s : State) (turn : Nat), s.schedule = [] → s.later = .free turn →
    step s = fire (Config.agentMove turn) { s with later := .free (turn + 1) }) ∧
  (∀ (s : State) (moves : List Transition), s.schedule = [] →
    Sys2Proof.core.run moves.length ({ s with schedule := moves } : State) = fireAll moves s) ∧
  (∀ s : State, step s = fireNextFrom Config.agentMove s) ∧
  (∀ (states : Nat → State) (moves : Nat → Transition), IsExecution states moves →
    IsRun moves fun n => { states n with schedule := [], later := .free n }) ∧
  (∀ (source : Nat → Transition) (states : Nat → State), IsRun source states →
    IsExecution (fun n => (states n).bare) (movesOf source states)) ∧
  (∀ (source : Nat → Transition) (states : Nat → State) (period : List Transition), IsRun source states →
    (states 0).later = .repeating period →
    (.tick60 ∈ period → TicksKeepComing (movesOf source states)) ∧
    (.step ∈ period → RunningIsStepped states (movesOf source states))) ∧
  (∀ (states : Nat → State) (moves : Nat → Transition), IsExecution states moves → RunningIsStepped states moves →
    ∀ n, (states n).run = .running → ∃ m, n ≤ m ∧ moves m = .step ∧
      ((∀ k, n ≤ k → k < m → moves k ≠ .reset ∧ ∀ bytes, moves k ≠ .loadProgram bytes) →
        (states m).run = .running ∧ (states m).PC = (states n).PC ∧ fetchWord (states m) = fetchWord (states n)))

/-! ## Arithmetic and logic (40_arith_logic.md) -/

/-- R81 to R83: `6xkk` loads, `7xkk` adds modulo 256 with no flag, `8xy0` copies; nothing else changes but PC. -/
def Obligations.LoadAndAddImmediate : Prop :=
  ∀ (s : State) (x y : Reg) (kk : Byte),
    exec (.ldImm x kk) s = .next { s with V := s.V.set x kk, PC := s.PC + 2 } ∧
    exec (.addImm x kk) s = .next { s with
      V := s.V.set x (BitVec.ofNat 8 ((s.V[x].toNat + kk.toNat) % 256)), PC := s.PC + 2 } ∧
    exec (.ldReg x y) s = .next { s with V := s.V.set x s.V[y], PC := s.PC + 2 }

/-- R84 to R86: the bitwise instructions write `V[x]` and nothing else but PC; VF is unchanged unless it is `V[x]` (the spec's
decision D8). -/
def Obligations.LogicWritesOnlyVx : Prop :=
  ∀ (s : State) (x y : Reg),
    exec (.orReg x y) s = .next { s with V := s.V.set x (s.V[x] ||| s.V[y]), PC := s.PC + 2 } ∧
    exec (.andReg x y) s = .next { s with V := s.V.set x (s.V[x] &&& s.V[y]), PC := s.PC + 2 } ∧
    exec (.xorReg x y) s = .next { s with V := s.V.set x (s.V[x] ^^^ s.V[y]), PC := s.PC + 2 }

/-- R87, R80(d): `8xy4` stores the sum modulo 256 and sets VF to the carry; with `x = 0xF` the sum remains in VF (the spec's
decision D6); operands are those of the state before, VF as `V[y]` included; nothing else changes but PC. -/
def Obligations.AddSetsCarry : Prop :=
  ∀ (s : State) (x y : Reg), ∃ t, exec (.addReg x y) s = .next t ∧ t = { s with V := t.V, PC := s.PC + 2 } ∧
    t.V[x].toNat = (s.V[x].toNat + s.V[y].toNat) % 256 ∧
    (x ≠ 15 → t.V[(15 : Reg)] = if s.V[x].toNat + s.V[y].toNat > 255 then 1#8 else 0#8) ∧
    (∀ r : Reg, r ≠ x → r ≠ 15 → t.V[r] = s.V[r])

/-- R88, R90, R80(c), conflict C6: the subtractions store the difference modulo 256 and set VF to 1 exactly when the minuend is
strictly greater, so that equal operands give 0; with `x = 0xF` the difference remains (the spec's decision D6). -/
def Obligations.SubtractFlagIsStrict : Prop :=
  ∀ (s : State) (x y : Reg),
    (∃ t, exec (.sub x y) s = .next t ∧ t = { s with V := t.V, PC := s.PC + 2 } ∧
      t.V[x].toNat = (256 + s.V[x].toNat - s.V[y].toNat) % 256 ∧
      (x ≠ 15 → t.V[(15 : Reg)] = if s.V[x].toNat > s.V[y].toNat then 1#8 else 0#8) ∧
      (∀ r : Reg, r ≠ x → r ≠ 15 → t.V[r] = s.V[r])) ∧
    (∃ t, exec (.subn x y) s = .next t ∧ t = { s with V := t.V, PC := s.PC + 2 } ∧
      t.V[x].toNat = (256 + s.V[y].toNat - s.V[x].toNat) % 256 ∧
      (x ≠ 15 → t.V[(15 : Reg)] = if s.V[y].toNat > s.V[x].toNat then 1#8 else 0#8) ∧
      (∀ r : Reg, r ≠ x → r ≠ 15 → t.V[r] = s.V[r]))

/-- R89, R91: the shifts work on `V[x]` in place, VF receives the bit shifted out, and `V[y]` is neither read nor written (the
spec's decisions D6, D7): the result is the same for every `y`. -/
def Obligations.ShiftsWorkInPlace : Prop :=
  ∀ (s : State) (x y : Reg),
    (∃ t, exec (.shr x y) s = .next t ∧ t = { s with V := t.V, PC := s.PC + 2 } ∧
      t.V[x].toNat = s.V[x].toNat / 2 ∧
      (x ≠ 15 → t.V[(15 : Reg)].toNat = s.V[x].toNat % 2) ∧
      (∀ r : Reg, r ≠ x → r ≠ 15 → t.V[r] = s.V[r]) ∧
      (∀ z : Reg, exec (.shr x z) s = .next t)) ∧
    (∃ t, exec (.shl x y) s = .next t ∧ t = { s with V := t.V, PC := s.PC + 2 } ∧
      t.V[x].toNat = 2 * s.V[x].toNat % 256 ∧
      (x ≠ 15 → t.V[(15 : Reg)].toNat = s.V[x].toNat / 128) ∧
      (∀ r : Reg, r ≠ x → r ≠ 15 → t.V[r] = s.V[r]) ∧
      (∀ z : Reg, exec (.shl x z) s = .next t))

/-- R92: `Cxkk` writes the drawn byte masked by `kk`: a bit clear in `kk` is clear in the result, whatever was drawn, and for every
draw `r` the masked byte is what is written. The draw is the free value of log entry 6. -/
def Obligations.RandomIsMasked : Prop :=
  ∀ (s : State) (x : Reg) (kk : Byte),
    exec (.rnd x kk) s = .next { s with
      V := s.V.set x (Config.draw8 s.draws &&& kk), PC := s.PC + 2, draws := s.draws + 1 } ∧
    (∀ r : Byte, randomEffect x kk r s = { s with V := s.V.set x (r &&& kk), PC := s.PC + 2 }) ∧
    (∀ t, exec (.rnd x kk) s = .next t → ∀ b, kk.getLsbD b = false → t.V[x].getLsbD b = false)

/-- R11: the flag writers leave 0 or 1 in VF (with `x = 0xF` the five arithmetic ones leave the result instead, R80(d)). -/
def Obligations.FlagIsZeroOrOne : Prop :=
  (∀ (s t : State) (x y : Reg) (i : Instr), i ∈ [.addReg x y, .sub x y, .subn x y, .shr x y, .shl x y] →
    x ≠ 15 → exec i s = .next t → t.V[(15 : Reg)] = 0#8 ∨ t.V[(15 : Reg)] = 1#8) ∧
  (∀ (s t : State) (x y : Reg) (n : Nibble), exec (.drw x y n) s = .next t → t.run = .faulted ∨
    t.V[(15 : Reg)] = 0#8 ∨ t.V[(15 : Reg)] = 1#8)

/-! ## Control flow (41_control_flow.md) -/

/-- R100: `1nnn`, the word 0x1000 plus the address, sets PC to the 12-bit address in the low 12 bits of the instruction, with no
increment, no flag, no check of the target and no exception; a target that cannot be fetched faults at the next `Step()`; a jump
to its own address stands. -/
def Obligations.JumpSetsPC : Prop :=
  (∀ nnn : Addr12, (encode (.jp nnn)).toNat = 0x1000 + nnn.toNat ∧ decode (encode (.jp nnn)) = .instr (.jp nnn)) ∧
  (∀ (s : State) (nnn : Addr12), exec (.jp nnn) s = .next { s with PC := nnn.setWidth 16 }) ∧
  (∀ (s t : State) (nnn : Addr12), s.run = .running → exec (.jp nnn) s = .next t → nnn.toNat = 0xFFF →
    fire .step t = .next { t with run := .faulted, fault := .addressOutOfRange 0xFFF#16 0x1000 }) ∧
  (∀ (s : State) (nnn : Addr12), s.PC = nnn.setWidth 16 → exec (.jp nnn) s = .next s)

/-- R101, R14: `2nnn` with fewer than 16 entries held pushes the address of the next instruction and jumps; the other entries and
all else are unchanged. -/
def Obligations.CallPushesReturnAddress : Prop :=
  ∀ (s : State) (nnn : Addr12) (h : s.sp.val < 16), ∃ t, exec (.call nnn) s = .next t ∧
    t = { s with PC := nnn.setWidth 16, sp := t.sp, stack := t.stack } ∧
    t.sp.val = s.sp.val + 1 ∧ t.stack[s.sp.val] = s.PC + 2 ∧
    (∀ j : Fin 16, j.val ≠ s.sp.val → t.stack[j] = s.stack[j])

/-- R102, R14: `00EE` with an entry held pops it into PC with no increment; the stack's entries and all else are unchanged. -/
def Obligations.ReturnPopsIntoPC : Prop :=
  ∀ (s : State) (j : Fin 16), s.sp.val = j.val + 1 →
    exec .ret s = .next { s with sp := ⟨j.val, by omega⟩, PC := s.stack[j] }

/-- R161, R162, R168: a call with 16 entries held and a return with none fault, with the information of R160, and change nothing
else: no entry, `sp` and PC stay. -/
def Obligations.StackFaultsArePrecise : Prop :=
  (∀ (s : State) (nnn : Addr12), s.sp.val = 16 →
    exec (.call nnn) s = .next { s with run := .faulted, fault := .stackOverflow s.PC nnn }) ∧
  (∀ s : State, s.sp.val = 0 → exec .ret s = .next { s with run := .faulted, fault := .stackUnderflow s.PC })

/-- The property S5 of the source (R101, R102): a call and then a return, at every depth, restore PC to the instruction after the
call and the stack as a program sees it. -/
def Obligations.CallThenReturnRestoresPC : Prop :=
  ∀ (s : State) (nnn : Addr12), s.sp.val < 16 → ∃ t u, exec (.call nnn) s = .next t ∧ exec .ret t = .next u ∧
    u = { s with PC := s.PC + 2, stack := u.stack } ∧
    (∀ j : Fin 16, j.val < s.sp.val → u.stack[j] = s.stack[j])

/-- R103: `Bnnn` jumps to `nnn + V[0]`, a sum that is neither wrapped nor masked (the spec's decision D29). -/
def Obligations.IndexedJumpAddsV0 : Prop :=
  ∀ (s : State) (nnn : Addr12), ∃ t, exec (.jpV0 nnn) s = .next t ∧ t = { s with PC := t.PC } ∧
    t.PC.toNat = nnn.toNat + s.V[(0 : Reg)].toNat

/-- R104 to R108: the skips on registers and immediates advance PC by 4 when their condition holds, else by 2, and change nothing
else. -/
def Obligations.SkipsAdvanceByFour : Prop :=
  ∀ (s : State) (x y : Reg) (kk : Byte),
    exec (.seImm x kk) s = .next { s with PC := s.PC + if s.V[x] = kk then 4 else 2 } ∧
    exec (.sneImm x kk) s = .next { s with PC := s.PC + if s.V[x] = kk then 2 else 4 } ∧
    exec (.seReg x y) s = .next { s with PC := s.PC + if s.V[x] = s.V[y] then 4 else 2 } ∧
    exec (.sneReg x y) s = .next { s with PC := s.PC + if s.V[x] = s.V[y] then 2 else 4 }

/-- R109, R110: the key skips read the latch at the key in `V[x]`, for a key number of at most 15, and change only PC. -/
def Obligations.KeySkipsReadLatch : Prop :=
  ∀ (s : State) (x : Reg) (k : Key), s.V[x].toNat = k.val →
    exec (.skp x) s = .next { s with PC := s.PC + if s.keys[k] = true then 4 else 2 } ∧
    exec (.sknp x) s = .next { s with PC := s.PC + if s.keys[k] = true then 2 else 4 }

/-- R164, R168: a key number above 15 faults with that number and changes nothing else (the spec's decision D11). -/
def Obligations.KeyNumberAboveFifteenFaults : Prop :=
  ∀ (s : State) (x : Reg), s.V[x].toNat > 15 →
    exec (.skp x) s = .next { s with run := .faulted, fault := .keyIndexOutOfRange s.PC s.V[x] } ∧
    exec (.sknp x) s = .next { s with run := .faulted, fault := .keyIndexOutOfRange s.PC s.V[x] }

/-! ## Index register and memory (42_index_memory.md) -/

/-- R121, R122: `Annn` loads `I`; `Fx1E` adds to it modulo 65536 with no flag, whatever the sum (the spec's decision D10). -/
def Obligations.IndexLoadAndAdd : Prop :=
  ∀ (s : State) (x : Reg) (nnn : Addr12),
    exec (.ldI nnn) s = .next { s with I := nnn.setWidth 16, PC := s.PC + 2 } ∧
    exec (.addI x) s = .next { s with
      I := BitVec.ofNat 16 ((s.I.toNat + s.V[x].toNat) % 65536), PC := s.PC + 2 }

/-- R123: `Fx29`, the word 0xF029 with `x` in its field, sets `I` to `FONT_BASE + 5 * V[x]`, the whole value of `V[x]` used, at
most 0x6AB; no flag, no exception, nothing else changes but PC. -/
def Obligations.GlyphAddressFormula : Prop :=
  (∀ x : Reg, (encode (.ldFont x)).toNat = 0xF029 + 0x100 * x.val ∧ decode (encode (.ldFont x)) = .instr (.ldFont x)) ∧
  (∀ (s : State) (x : Reg), ∃ t, exec (.ldFont x) s = .next t ∧ t = { s with I := t.I, PC := s.PC + 2 } ∧
    t.I.toNat = s.params.fontBase.val + 5 * s.V[x].toNat ∧ t.I.toNat ≤ 0x6AB)

/-- R124: `Fx33` with `I + 2` inside memory writes the three digits at `I`, `I + 1`, `I + 2`; every other byte, and all else but PC,
is unchanged. -/
def Obligations.BcdStoresDigits : Prop :=
  ∀ (s : State) (x : Reg), effAddr s 2 ≤ 4095 → ∃ t, exec (.bcd x) s = .next t ∧
    t = { s with mem := t.mem, PC := s.PC + 2 } ∧
    (t.byte (effAddr s 0)).toNat = s.V[x].toNat / 100 ∧
    (t.byte (effAddr s 1)).toNat = s.V[x].toNat / 10 % 10 ∧
    (t.byte (effAddr s 2)).toNat = s.V[x].toNat % 10 ∧
    (∀ a, a < effAddr s 0 ∨ effAddr s 2 < a → t.byte a = s.byte a)

/-- R125: `Fx55` with `I + x` inside memory stores V0 to Vx at `I` and up; every other byte, the registers, `I` (the spec's
decision D9) and all else but PC are unchanged. -/
def Obligations.BlockStoreWritesRegisters : Prop :=
  ∀ (s : State) (x : Reg), effAddr s x.val ≤ 4095 → ∃ t, exec (.stRegs x) s = .next t ∧
    t = { s with mem := t.mem, PC := s.PC + 2 } ∧
    (∀ i : Reg, i ≤ x → t.byte (effAddr s i.val) = s.V[i]) ∧
    (∀ a, a < effAddr s 0 ∨ effAddr s x.val < a → t.byte a = s.byte a)

/-- R126: `Fx65` with `I + x` inside memory loads V0 to Vx; the other registers, `I` (the spec's decision D9), memory and all else
but PC are unchanged. -/
def Obligations.BlockLoadReadsMemory : Prop :=
  ∀ (s : State) (x : Reg), effAddr s x.val ≤ 4095 → ∃ t, exec (.ldRegs x) s = .next t ∧
    t = { s with V := t.V, PC := s.PC + 2 } ∧
    (∀ i : Reg, i ≤ x → t.V[i] = s.byte (effAddr s i.val)) ∧
    (∀ i : Reg, x < i → t.V[i] = s.V[i])

/-- R163(b), R120, R168: an access whose highest address passes 4095 faults with that address before any effect: nothing is
written, drawn or loaded (the spec's decisions D1, D24). -/
def Obligations.SpanPastMemoryFaults : Prop :=
  ∀ (s : State) (x y : Reg) (n : Nibble),
    (effAddr s 2 > 4095 →
      exec (.bcd x) s = .next { s with run := .faulted, fault := .addressOutOfRange s.PC (effAddr s 2) }) ∧
    (effAddr s x.val > 4095 →
      exec (.stRegs x) s = .next { s with run := .faulted, fault := .addressOutOfRange s.PC (effAddr s x.val) } ∧
      exec (.ldRegs x) s = .next { s with run := .faulted, fault := .addressOutOfRange s.PC (effAddr s x.val) }) ∧
    (n.toNat > 0 → effAddr s (n.toNat - 1) > 4095 →
      exec (.drw x y n) s = .next { s with
        run := .faulted, fault := .addressOutOfRange s.PC (effAddr s (n.toNat - 1)) })

/-- R49: a store is seen by the next fetch. After an `Fx55` or an `Fx33` inside memory, each byte of the word at the new PC that the
instruction stored is the byte stored, a register or a digit, whether it stored both bytes of that word or one of them, and each
that it did not store is the byte before. -/
def Obligations.StoreIsSeenByNextFetch : Prop :=
  (∀ (s : State) (x : Reg), effAddr s x.val ≤ 4095 → ∃ t, exec (.stRegs x) s = .next t ∧ t.PC = s.PC + 2 ∧
    (∀ i : Reg, i ≤ x → t.PC.toNat = effAddr s i.val → highByte (fetchWord t) = s.V[i]) ∧
    (∀ i : Reg, i ≤ x → t.PC.toNat + 1 = effAddr s i.val → lowByte (fetchWord t) = s.V[i]) ∧
    (∀ i j : Reg, j ≤ x → j.val = i.val + 1 → t.PC.toNat = effAddr s i.val → fetchWord t = s.V[i] ++ s.V[j]) ∧
    (¬ storesTo (.stRegs x) s t.PC.toNat → highByte (fetchWord t) = s.byte t.PC.toNat) ∧
    (¬ storesTo (.stRegs x) s (t.PC.toNat + 1) → lowByte (fetchWord t) = s.byte (t.PC.toNat + 1))) ∧
  (∀ (s : State) (x : Reg), effAddr s 2 ≤ 4095 → ∃ t, exec (.bcd x) s = .next t ∧ t.PC = s.PC + 2 ∧
    (t.PC.toNat = effAddr s 0 → (highByte (fetchWord t)).toNat = s.V[x].toNat / 100) ∧
    (t.PC.toNat = effAddr s 1 → (highByte (fetchWord t)).toNat = s.V[x].toNat / 10 % 10) ∧
    (t.PC.toNat = effAddr s 2 → (highByte (fetchWord t)).toNat = s.V[x].toNat % 10) ∧
    (t.PC.toNat + 1 = effAddr s 0 → (lowByte (fetchWord t)).toNat = s.V[x].toNat / 100) ∧
    (t.PC.toNat + 1 = effAddr s 1 → (lowByte (fetchWord t)).toNat = s.V[x].toNat / 10 % 10) ∧
    (t.PC.toNat + 1 = effAddr s 2 → (lowByte (fetchWord t)).toNat = s.V[x].toNat % 10) ∧
    (¬ storesTo (.bcd x) s t.PC.toNat → highByte (fetchWord t) = s.byte t.PC.toNat) ∧
    (¬ storesTo (.bcd x) s (t.PC.toNat + 1) → lowByte (fetchWord t) = s.byte (t.PC.toNat + 1)))

/-- R40, R44: two memories in canonical form that read alike at every address of memory, whatever the bytes never written hold (R197),
are the same data. -/
def Obligations.CanonicalMemoryIsUnique : Prop :=
  ∀ (p : Params) (m m' : Memory), Memory.wf p m = true → Memory.wf p m' = true →
    (∀ (init : Nat → Byte), ∀ a < 4096, Memory.readFrom init p m a = Memory.readFrom init p m' a) → m = m'

/-! ## Display (43_display.md) -/

/-- R141: `00E0` clears every cell and marks a redraw (the spec's decision D15); VF and all else but PC are unchanged. -/
def Obligations.ClearScreenClearsCells : Prop :=
  ∀ s : State, ∃ t, exec .cls s = .next t ∧ t = { s with FB := t.FB, redrawPending := true, PC := s.PC + 2 } ∧
    ∀ (px : Fin 64) (py : Fin 32), t.cell px py = false

/-- R142, R140: `Dxyn` with its sprite inside memory (or of no rows) flips exactly the cells on which a set bit of the sprite falls,
wrapping on both axes; VF becomes 1 exactly when one of them was set before, else 0; the other registers, memory and all else are
unchanged. The coordinates are the registers of the state before, VF included (the spec's decision D6). -/
def Obligations.DrawFlipsCoveredCells : Prop :=
  ∀ (s : State) (x y : Reg) (n : Nibble), (n.toNat = 0 ∨ effAddr s (n.toNat - 1) ≤ 4095) →
    ∃ t, exec (.drw x y n) s = .next t ∧
      t = { s with V := t.V, FB := t.FB, redrawPending := true, PC := s.PC + 2 } ∧
      (∀ px py, spriteCovers s s.V[x] s.V[y] n.toNat px py → t.cell px py = !s.cell px py) ∧
      (∀ px py, ¬ spriteCovers s s.V[x] s.V[y] n.toNat px py → t.cell px py = s.cell px py) ∧
      (t.V[(15 : Reg)] = 1#8 ∨ t.V[(15 : Reg)] = 0#8) ∧
      (t.V[(15 : Reg)] = 1#8 ↔ ∃ px py, spriteCovers s s.V[x] s.V[y] n.toNat px py ∧ s.cell px py = true) ∧
      (∀ r : Reg, r ≠ 15 → t.V[r] = s.V[r])

/-- The property S3 of the source (R142): a second identical draw at the same position restores the framebuffer, and its VF is 1
exactly when some set bit of the sprite fell on a cell that was unset before the first. -/
def Obligations.DrawTwiceRestoresScreen : Prop :=
  ∀ (s t : State) (x y : Reg) (n : Nibble), (n.toNat = 0 ∨ effAddr s (n.toNat - 1) ≤ 4095) →
    exec (.drw x y n) s = .next t → t.V[x] = s.V[x] → t.V[y] = s.V[y] →
    ∃ u, exec (.drw x y n) t = .next u ∧ u.FB = s.FB ∧
      (u.V[(15 : Reg)] = 1#8 ↔ ∃ px py, spriteCovers s s.V[x] s.V[y] n.toNat px py ∧ s.cell px py = false)

/-! ## Timers and key-wait (44_timers_keys.md) -/

/-- R150 to R152: `Fx07` reads the delay timer, `Fx15` and `Fx18` write the timers; nothing else changes but PC, and the tone
follows `ST` at once (R176). -/
def Obligations.TimerAccess : Prop :=
  ∀ (s : State) (x : Reg),
    exec (.ldFromDT x) s = .next { s with V := s.V.set x s.DT, PC := s.PC + 2 } ∧
    exec (.ldDT x) s = .next { s with DT := s.V[x], PC := s.PC + 2 } ∧
    (∃ t, exec (.ldST x) s = .next t ∧ t = { s with ST := s.V[x], PC := s.PC + 2 } ∧
      (tone t = true ↔ s.V[x] ≠ 0#8))

/-- R153: `Fx0A` only records the wait and its target, PC held, whatever keys are down (the spec's decision D30). -/
def Obligations.KeyWaitBegins : Prop :=
  ∀ (s : State) (x : Reg), exec (.ldKey x) s = .next { s with run := .awaitingKey, waitReg := x }

/-- The property S7 of the source as R153 and conflict C2 settle it: after `Fx0A`, with no other agent to move, no number of steps
changes anything, and the next key-down writes its key into the target register and moves PC past the instruction, once. -/
def Obligations.KeyWaitHoldsUntilKeyDown : Prop :=
  ∀ (s : State) (x : Reg) (k : Key) (m : Nat), s.schedule = [] → s.later = .repeating [] → ∃ t u,
    exec (.ldKey x) s = .next t ∧ Sys2Proof.core.run m t = .next t ∧ t.PC = s.PC ∧
    fire (.keyDown k) t = .next u ∧ u.run = .running ∧ u.V[x].toNat = k.val ∧ u.PC = s.PC + 2 ∧
    (∀ r : Reg, r ≠ x → u.V[r] = s.V[r])

/-! ## The whole machine -/

/-- The invariant of Safety.lean holds at reset. -/
def Obligations.InvariantHoldsAtReset : Prop := Inv State.reset

/-- Every transition of the machine keeps the invariant: memory stays canonical, PC stays at most 0x10FE (R13), a waiting core
stands where it fetched, return addresses stay at most 4096 (R101), and a fault is recorded exactly while the core is faulted, at
its PC (R168). -/
def Obligations.StepKeepsMachineInvariant : Prop := ∀ s t : State, Inv s → step s = .next t → Inv t

/-- R167, R168: an instruction whose execute-stage check fails enters that fault and changes nothing else, and an instruction
faults only so. -/
def Obligations.FaultsArePrecise : Prop :=
  ∀ (i : Instr) (s t : State), exec i s = .next t →
    (executeCheck i s ≠ .none → t = { s with run := .faulted, fault := executeCheck i s }) ∧
    (executeCheck i s = .none → t.fault = s.fault ∧ (t.run = .faulted → s.run = .faulted))

/-- The PC table of R13: an instruction that passes its check moves PC as its directive says, and one that faults leaves it. -/
def Obligations.PcFollowsDirective : Prop :=
  ∀ (i : Instr) (s t : State), exec i s = .next t →
    (executeCheck i s = .none → t.PC = (directive i s).apply s.PC) ∧
    (executeCheck i s ≠ .none → t.PC = s.PC)

/-- R10, R11: no instruction writes a general register but its destination and, for the six flag writers, VF. -/
def Obligations.RegisterFrame : Prop :=
  ∀ (i : Instr) (s t : State) (r : Reg), exec i s = .next t → mayWrite i r = false → t.V[r] = s.V[r]

/-- R40, R50: every byte of memory an instruction does not store to reads as before; only `Fx33` and `Fx55` store. -/
def Obligations.MemoryFrame : Prop :=
  ∀ (i : Instr) (s t : State) (a : Nat), exec i s = .next t → ¬ storesTo i s a → t.byte a = s.byte a

/-- R12, R14 to R22: which instructions write the other elements: the stack only by call and return, the timers only by `Fx15` and
`Fx18`, `I` only by `Annn`, `Fx1E`, `Fx29`, the framebuffer and its mark only by `00E0` and `Dxyn`, the wait register only by
`Fx0A`, and no instruction the key latch or the warning. Of the model's own fields (log entries 5, 6 and 7), the counter of draws is
written only by `Cxkk`, and the parameters and the record of moves by no instruction. -/
def Obligations.SpecialStateFrame : Prop :=
  ∀ (i : Instr) (s t : State), exec i s = .next t →
    ((t.sp = s.sp ∧ t.stack = s.stack) ∨ i = .ret ∨ ∃ nnn, i = .call nnn) ∧
    (t.stack = s.stack ∨ ∃ nnn, i = .call nnn) ∧
    (t.DT = s.DT ∨ ∃ x, i = .ldDT x) ∧
    (t.ST = s.ST ∨ ∃ x, i = .ldST x) ∧
    (t.I = s.I ∨ (∃ nnn, i = .ldI nnn) ∨ (∃ x, i = .addI x) ∨ ∃ x, i = .ldFont x) ∧
    ((t.FB = s.FB ∧ t.redrawPending = s.redrawPending) ∨ i = .cls ∨ ∃ x y n, i = .drw x y n) ∧
    (t.waitReg = s.waitReg ∨ ∃ x, i = .ldKey x) ∧
    (t.draws = s.draws ∨ ∃ x kk, i = .rnd x kk) ∧
    t.keys = s.keys ∧ t.warn = s.warn ∧ t.warnWord = s.warnWord ∧ t.warnPC = s.warnPC ∧
    t.params = s.params ∧ t.schedule = s.schedule ∧ t.later = s.later

/-- R19: the key latch is written only by `KeyDown(k)`, to 1, and `KeyUp(k)`, to 0, and read only by `Ex9E` and `ExA1`: every other
instruction, `Fx0A` included, and every other transition does the same under every latch. -/
def Obligations.KeyLatchIsIsolated : Prop :=
  (∀ (t : Transition) (s u : State) (k : Key), fire t s = .next u → s.keys[k] = false → u.keys[k] = true →
    t = .keyDown k) ∧
  (∀ (t : Transition) (s u : State) (k : Key), fire t s = .next u → s.keys[k] = true → u.keys[k] = false →
    t = .keyUp k) ∧
  (∀ (s : State) (k : Key), ∃ u v, fire (.keyDown k) s = .next u ∧ u.keys = s.keys.set k true ∧
    fire (.keyUp k) s = .next v ∧ v.keys = s.keys.set k false) ∧
  (∀ (i : Instr) (s t : State) (latch : Vector Bool 16), exec i s = .next t →
    (∀ x, i ≠ .skp x) → (∀ x, i ≠ .sknp x) →
    exec i { s with keys := latch } = .next { t with keys := latch }) ∧
  (∀ (t : Transition) (s u : State) (latch : Vector Bool 16), fire t s = .next u →
    (t = .step → ∀ x, decode (fetchWord s) ≠ .instr (.skp x) ∧ decode (fetchWord s) ≠ .instr (.sknp x)) →
    ∃ v, fire t { s with keys := latch } = .next v ∧ v = { u with keys := v.keys })
end

