-- ==== Sys2Proof/Laws/Decode.lean ====
section
/-! SUPPORT. The fields of a word and the words of the formats as arithmetic on their numbers, and what follows: a format's word
gives back its fields, and a word is put together from its fields (spec R61, R62). -/

namespace Sys2Proof

@[simp] theorem regOf_bits (x : Reg) : regOf x.bits = x := by
  have := x.isLt
  apply Fin.ext
  simp only [regOf, Reg.bits, BitVec.toNat_ofNat]
  omega

@[simp] theorem bits_regOf (b : Nibble) : (regOf b).bits = b := by
  apply BitVec.eq_of_toNat_eq
  have := b.isLt
  simp only [regOf, Reg.bits, BitVec.toNat_ofNat]
  omega

@[simp] theorem toNat_bits (x : Reg) : x.bits.toNat = x.val := by
  have := x.isLt
  simp only [Reg.bits, BitVec.toNat_ofNat]
  omega

/-- Concatenation, the left operand high (R5), as arithmetic. -/
theorem toNat_append_eq {k m : Nat} (a : BitVec k) (b : BitVec m) :
    (a ++ b).toNat = a.toNat * 2 ^ m + b.toNat := by
  rw [BitVec.toNat_append, ← Nat.shiftLeft_add_eq_or_of_lt b.isLt, Nat.shiftLeft_eq]

/-! ## The formats (R62) -/

theorem toNat_formatNNN (op : Nibble) (nnn : Addr12) :
    (formatNNN op nnn).toNat = op.toNat * 4096 + nnn.toNat := toNat_append_eq op nnn

theorem toNat_formatXKK (op : Nibble) (x : Reg) (kk : Byte) :
    (formatXKK op x kk).toNat = op.toNat * 4096 + x.val * 256 + kk.toNat := by
  have h : (formatXKK op x kk).toNat = op.toNat * 2 ^ 12 + (x.bits ++ kk).toNat := toNat_append_eq op (x.bits ++ kk)
  rw [h, toNat_append_eq, toNat_bits]
  omega

theorem toNat_formatXYN (op : Nibble) (x y : Reg) (n : Nibble) :
    (formatXYN op x y n).toNat = op.toNat * 4096 + x.val * 256 + y.val * 16 + n.toNat := by
  have h : (formatXYN op x y n).toNat = op.toNat * 2 ^ 12 + (x.bits ++ (y.bits ++ n)).toNat :=
    toNat_append_eq op (x.bits ++ (y.bits ++ n))
  have h' : (x.bits ++ (y.bits ++ n)).toNat = x.bits.toNat * 2 ^ 8 + (y.bits ++ n).toNat :=
    toNat_append_eq x.bits (y.bits ++ n)
  rw [h, h', toNat_append_eq, toNat_bits, toNat_bits]
  omega

/-! ## The fields (R61) -/

section Fields
variable (w : Word)

theorem toNat_opField : (opField w).toNat = w.toNat / 4096 := by
  have := w.isLt
  simp only [opField, BitVec.extractLsb'_toNat, Nat.shiftRight_eq_div_pow]
  omega

theorem val_xField : (xField w).val = w.toNat / 256 % 16 := by
  simp [xField, regOf, BitVec.extractLsb'_toNat, Nat.shiftRight_eq_div_pow]

theorem val_yField : (yField w).val = w.toNat / 16 % 16 := by
  simp [yField, regOf, BitVec.extractLsb'_toNat, Nat.shiftRight_eq_div_pow]

theorem toNat_nField : (nField w).toNat = w.toNat % 16 := by
  simp [nField, BitVec.extractLsb'_toNat]

theorem toNat_kkField : (kkField w).toNat = w.toNat % 256 := by
  simp [kkField, BitVec.extractLsb'_toNat]

theorem toNat_nnnField : (nnnField w).toNat = w.toNat % 4096 := by
  simp [nnnField, BitVec.extractLsb'_toNat]

/-- The two bytes of a word, high byte first, make the word (R42). -/
@[simp] theorem wordOfBytes_high_low : wordOfBytes (highByte w) (lowByte w) = w := by
  have := w.isLt
  apply BitVec.eq_of_toNat_eq
  have h : (wordOfBytes (highByte w) (lowByte w)).toNat = (highByte w).toNat * 2 ^ 8 + (lowByte w).toNat :=
    toNat_append_eq _ _
  rw [h]
  simp only [highByte, lowByte, BitVec.extractLsb'_toNat, Nat.shiftRight_eq_div_pow]
  omega

/-- A word from its fields, in each format. -/
theorem formatNNN_fields : formatNNN (opField w) (nnnField w) = w := by
  apply BitVec.eq_of_toNat_eq
  rw [toNat_formatNNN, toNat_opField, toNat_nnnField]
  omega

theorem formatXKK_fields : formatXKK (opField w) (xField w) (kkField w) = w := by
  apply BitVec.eq_of_toNat_eq
  rw [toNat_formatXKK, toNat_opField, val_xField, toNat_kkField]
  omega

theorem formatXYN_fields : formatXYN (opField w) (xField w) (yField w) (nField w) = w := by
  apply BitVec.eq_of_toNat_eq
  rw [toNat_formatXYN, toNat_opField, val_xField, val_yField, toNat_nField]
  omega

end Fields

/-! ## The fields of a format's word -/

section FieldsOfFormats
variable (op : Nibble) (x y : Reg) (n : Nibble) (kk : Byte) (nnn : Addr12)

@[simp] theorem opField_formatNNN : opField (formatNNN op nnn) = op := by
  have := nnn.isLt
  apply BitVec.eq_of_toNat_eq
  rw [toNat_opField, toNat_formatNNN]
  omega

@[simp] theorem nnnField_formatNNN : nnnField (formatNNN op nnn) = nnn := by
  have := nnn.isLt
  apply BitVec.eq_of_toNat_eq
  rw [toNat_nnnField, toNat_formatNNN]
  omega

@[simp] theorem opField_formatXKK : opField (formatXKK op x kk) = op := by
  have := x.isLt
  have := kk.isLt
  apply BitVec.eq_of_toNat_eq
  rw [toNat_opField, toNat_formatXKK]
  omega

@[simp] theorem xField_formatXKK : xField (formatXKK op x kk) = x := by
  have := x.isLt
  have := kk.isLt
  apply Fin.ext
  rw [val_xField, toNat_formatXKK]
  omega

@[simp] theorem kkField_formatXKK : kkField (formatXKK op x kk) = kk := by
  have := kk.isLt
  apply BitVec.eq_of_toNat_eq
  rw [toNat_kkField, toNat_formatXKK]
  omega

@[simp] theorem opField_formatXYN : opField (formatXYN op x y n) = op := by
  have := x.isLt
  have := y.isLt
  have := n.isLt
  apply BitVec.eq_of_toNat_eq
  rw [toNat_opField, toNat_formatXYN]
  omega

@[simp] theorem xField_formatXYN : xField (formatXYN op x y n) = x := by
  have := x.isLt
  have := y.isLt
  have := n.isLt
  apply Fin.ext
  rw [val_xField, toNat_formatXYN]
  omega

@[simp] theorem yField_formatXYN : yField (formatXYN op x y n) = y := by
  have := y.isLt
  have := n.isLt
  apply Fin.ext
  rw [val_yField, toNat_formatXYN]
  omega

@[simp] theorem nField_formatXYN : nField (formatXYN op x y n) = n := by
  have := n.isLt
  apply BitVec.eq_of_toNat_eq
  rw [toNat_nField, toNat_formatXYN]
  omega

end FieldsOfFormats

/-! ## The masks of the opcode table (R65) -/

section Masks
variable (op : Nibble) (x y : Reg) (n : Nibble) (kk : Byte) (nnn : Addr12)

/-- A bitwise and of concatenations goes part by part. -/
theorem and_parts {k m : Nat} (a c : BitVec k) (b d : BitVec m) : (a ++ b) &&& (c ++ d) = (a &&& c) ++ (b &&& d) :=
  BitVec.and_append

theorem nibble_and_ones : op &&& 0xF#4 = op := BitVec.and_allOnes

/-- The mask 0xF000 keeps `op`. -/
theorem formatNNN_and_mask : formatNNN op nnn &&& 0xF000#16 = formatNNN op 0#12 := by
  refine (and_parts op 0xF#4 nnn 0#12).trans ?_
  rw [nibble_and_ones, BitVec.and_zero]
  rfl

theorem formatXKK_and_op : formatXKK op x kk &&& 0xF000#16 = formatNNN op 0#12 :=
  formatNNN_and_mask op (x.bits ++ kk)

theorem formatXYN_and_op : formatXYN op x y n &&& 0xF000#16 = formatNNN op 0#12 :=
  formatNNN_and_mask op (x.bits ++ (y.bits ++ n))

/-- The mask 0xF0FF keeps `op` and `kk`. -/
theorem formatXKK_and_mask : formatXKK op x kk &&& 0xF0FF#16 = formatXKK op 0 kk := by
  have h : x.bits ++ kk &&& 0#4 ++ 0xFF#8 = Reg.bits 0 ++ kk := by
    rw [and_parts, BitVec.and_zero, show kk &&& 0xFF#8 = kk from BitVec.and_allOnes]
    rfl
  refine (and_parts op 0xF#4 (x.bits ++ kk) (0#4 ++ 0xFF#8)).trans ?_
  rw [nibble_and_ones, h]
  rfl

/-- The mask 0xF00F keeps `op` and `n`. -/
theorem formatXYN_and_mask : formatXYN op x y n &&& 0xF00F#16 = formatXYN op 0 0 n := by
  have h : y.bits ++ n &&& 0#4 ++ 0xF#4 = Reg.bits 0 ++ n := by
    rw [and_parts, BitVec.and_zero, nibble_and_ones]
    rfl
  have h' : x.bits ++ (y.bits ++ n) &&& 0#4 ++ (0#4 ++ 0xF#4) = Reg.bits 0 ++ (Reg.bits 0 ++ n) := by
    rw [and_parts, BitVec.and_zero, h]
    rfl
  refine (and_parts op 0xF#4 (x.bits ++ (y.bits ++ n)) (0#4 ++ (0#4 ++ 0xF#4))).trans ?_
  rw [nibble_and_ones, h']
  rfl

end Masks

end Sys2Proof
end

