-- ==== Sys2Proof/Laws/Memory.lean ====
section
/-! SUPPORT. The laws of main memory: read after write, and that every operation keeps the canonical form. -/

namespace Sys2Proof.Machine

variable (p : Params)

/-- The font region lies below the program area (the constraint on `FONT_BASE` of R4). -/
theorem lt_progBase_of_inFont {a : Nat} (h : inFont p a = true) : a < 0x200 := by
  have := p.fontBase.isLt
  simp only [inFont, Bool.and_eq_true, decide_eq_true_eq] at h
  simp only [Config.fontBytes] at h
  omega

namespace Memory

/-! ## Lookup under the list operations -/

@[simp] theorem find?_nil (a : Nat) : find? a [] = none := rfl

theorem find?_cons (a b : Nat) (v : Byte) (m : Memory) :
    find? a ((b, v) :: m) = if a = b then some v else find? a m := rfl

@[simp] theorem find?_insert (a b : Nat) (v : Byte) (m : Memory) :
    find? b (insert a v m) = if b = a then some v else find? b m := by
  induction m with
  | nil => rfl
  | cons c rest ih =>
    obtain ⟨k, w⟩ := c
    unfold insert
    split
    · simp only [find?_cons]
    · split
      · next h => subst h; simp only [find?_cons]; split <;> rfl
      · next h =>
        simp only [find?_cons, ih]
        by_cases h1 : b = k
        · subst h1; rw [if_pos rfl, if_neg (fun e => h e.symm), if_pos rfl]
        · rw [if_neg h1, if_neg h1]

/-- Lookup in a memory that keeps only the entries whose address passes a test. -/
theorem find?_filter (q : Nat → Bool) (b : Nat) (m : Memory) :
    find? b (m.filter fun c => q c.1) = if q b then find? b m else none := by
  induction m with
  | nil => simp
  | cons c rest ih =>
    obtain ⟨k, w⟩ := c
    by_cases hk : q k <;> by_cases hb : b = k <;> simp_all [find?_cons]

@[simp] theorem find?_erase (a b : Nat) (m : Memory) :
    find? b (erase a m) = if b = a then none else find? b m := by
  have h := find?_filter (fun k => k != a) b m
  unfold erase
  rw [h]
  by_cases hb : b = a <;> simp [hb]

/-! ## Reading after a write -/

/-- Whatever the content of the bytes never written: the byte written is read, every other address reads as before. -/
theorem readFrom_write (init : Nat → Byte) (m : Memory) (a b : Nat) (v : Byte) :
    readFrom init p (write p m a v) b = if b = a then v else readFrom init p m b := by
  unfold readFrom write
  split
  · next h => by_cases hb : b = a <;> simp [hb, h, unlistedByte]
  · by_cases hb : b = a <;> simp [hb]

theorem read_write (m : Memory) (a b : Nat) (v : Byte) :
    read p (write p m a v) b = if b = a then v else read p m b := readFrom_write p Config.memInit m a b v

@[simp] theorem read_write_same (m : Memory) (a : Nat) (v : Byte) : read p (write p m a v) a = v := by
  simp [read_write]

theorem read_write_ne (m : Memory) {a b : Nat} (v : Byte) (h : b ≠ a) :
    read p (write p m a v) b = read p m b := by
  simp [read_write, h]

/-- Reading after consecutive writes from `a` up. -/
theorem read_writeList (m : Memory) (a b : Nat) (vs : List Byte) :
    read p (writeList p m a vs) b =
      if h : a ≤ b ∧ b < a + vs.length then vs[b - a]'(by omega) else read p m b := by
  induction vs generalizing m a with
  | nil => rw [dif_neg (by simp)]; rfl
  | cons v vs ih =>
    have hlen : (v :: vs).length = vs.length + 1 := rfl
    rw [writeList, ih]
    by_cases hb : b = a
    · subst hb; simp
    · by_cases h : a ≤ b ∧ b < a + (v :: vs).length
      · rw [dif_pos (by omega), dif_pos h]
        have : b - a = (b - (a + 1)) + 1 := by omega
        simp only [this, List.getElem_cons_succ]
      · rw [dif_neg (by omega), dif_neg h, read_write_ne p m v hb]

/-- Restoring the fontset puts the font's bytes back and leaves every other address. -/
theorem read_restoreFont (m : Memory) (a : Nat) :
    read p (restoreFont p m) a = if inFont p a then fontByte p (a - p.fontBase.val) else read p m a := by
  unfold read readFrom restoreFont
  rw [find?_filter (fun k => !inFont p k)]
  by_cases h : inFont p a <;> simp [h, unlistedByte, knownByte]

/-- In the font region an unlisted address reads as the fontset's byte, whatever the bytes never written hold. -/
theorem read_of_unlisted_font (m : Memory) {a : Nat} (hm : find? a m = none) (h : inFont p a = true) :
    read p m a = fontByte p (a - p.fontBase.val) := by
  simp [read, readFrom, hm, unlistedByte, knownByte, h]

/-! ## The canonical form -/

/-- The canonical form of an entry: inside memory, and not what is known of its address unlisted. -/
theorem wf_iff (m : Memory) :
    wf p m = true ↔ (m.Pairwise fun c d => c.1 < d.1) ∧ ∀ c ∈ m, c.1 < 4096 ∧ knownByte p c.1 ≠ some c.2 := by
  simp only [wf, List.all_eq_true, Bool.and_eq_true, decide_eq_true_eq, ne_eq]
  rfl

@[simp] theorem wf_nil : wf p [] = true := rfl

theorem wf_filter (q : Host.Cell → Bool) {m : Memory} (h : wf p m = true) : wf p (m.filter q) = true := by
  rw [wf_iff] at *
  exact ⟨h.1.filter _, fun c hc => h.2 c (List.mem_filter.1 hc).1⟩

theorem wf_erase (a : Nat) {m : Memory} (h : wf p m = true) : wf p (erase a m) = true := wf_filter p _ h

theorem wf_restoreFont {m : Memory} (h : wf p m = true) : wf p (restoreFont p m) = true := wf_filter p _ h

/-- An entry of a memory after an insertion is the new one or an old one. -/
theorem mem_insert {a : Nat} {v : Byte} {m : Memory} {c : Host.Cell} (h : c ∈ insert a v m) :
    c = (a, v) ∨ c ∈ m := by
  induction m with
  | nil => simpa [insert] using h
  | cons d rest ih =>
    obtain ⟨k, w⟩ := d
    unfold insert at h
    split at h
    · simpa using h
    · split at h
      · rcases List.mem_cons.1 h with h | h
        · exact .inl h
        · exact .inr (List.mem_cons_of_mem _ h)
      · rcases List.mem_cons.1 h with h | h
        · exact .inr (h ▸ List.mem_cons_self)
        · exact (ih h).imp id (List.mem_cons_of_mem _)

theorem pairwise_insert (a : Nat) (v : Byte) {m : Memory} (h : m.Pairwise fun c d => c.1 < d.1) :
    (insert a v m).Pairwise fun c d => c.1 < d.1 := by
  induction m with
  | nil => simp [insert]
  | cons d rest ih =>
    obtain ⟨k, w⟩ := d
    obtain ⟨h1, h2⟩ := List.pairwise_cons.1 h
    unfold insert
    split
    · next hlt =>
      refine List.pairwise_cons.2 ⟨fun e he => ?_, h⟩
      rcases List.mem_cons.1 he with he | he
      · subst he; exact hlt
      · exact lt_trans hlt (h1 e he)
    · split
      · next heq => subst heq; exact List.pairwise_cons.2 ⟨h1, h2⟩
      · refine List.pairwise_cons.2 ⟨fun e he => ?_, ih h2⟩
        rcases mem_insert he with he | he
        · subst he; show k < a; omega
        · exact h1 e he

theorem wf_write {m : Memory} (a : Nat) (v : Byte) (ha : a < 4096) (h : wf p m = true) :
    wf p (write p m a v) = true := by
  unfold write
  split
  · exact wf_erase p a h
  · next hv =>
    rw [wf_iff] at *
    refine ⟨pairwise_insert a v h.1, fun c hc => ?_⟩
    rcases mem_insert hc with rfl | hc
    · exact ⟨ha, hv⟩
    · exact h.2 c hc

theorem wf_writeList {m : Memory} (a : Nat) (vs : List Byte) (ha : a + vs.length ≤ 4096) (h : wf p m = true) :
    wf p (writeList p m a vs) = true := by
  induction vs generalizing m a with
  | nil => exact h
  | cons v vs ih =>
    rw [List.length_cons] at ha
    exact ih (a + 1) (by omega) (wf_write p a v (by omega) h)

end Memory

end Sys2Proof.Machine
end

