-- ==== Sys2Proof/Laws/State.lean ====
section
/-! SUPPORT. One lemma for each field of State under each update of the state, true by rfl; no later proof unfolds a record update. -/

namespace Sys2Proof.Machine.State

variable (s : State)

/-! ## `setReg` -/

@[simp] theorem setReg_V (x : Reg) (v : Byte) : (s.setReg x v).V = s.V.set x v := rfl
@[simp] theorem setReg_I (x : Reg) (v : Byte) : (s.setReg x v).I = s.I := rfl
@[simp] theorem setReg_PC (x : Reg) (v : Byte) : (s.setReg x v).PC = s.PC := rfl
@[simp] theorem setReg_sp (x : Reg) (v : Byte) : (s.setReg x v).sp = s.sp := rfl
@[simp] theorem setReg_stack (x : Reg) (v : Byte) : (s.setReg x v).stack = s.stack := rfl
@[simp] theorem setReg_DT (x : Reg) (v : Byte) : (s.setReg x v).DT = s.DT := rfl
@[simp] theorem setReg_ST (x : Reg) (v : Byte) : (s.setReg x v).ST = s.ST := rfl
@[simp] theorem setReg_mem (x : Reg) (v : Byte) : (s.setReg x v).mem = s.mem := rfl
@[simp] theorem setReg_FB (x : Reg) (v : Byte) : (s.setReg x v).FB = s.FB := rfl
@[simp] theorem setReg_keys (x : Reg) (v : Byte) : (s.setReg x v).keys = s.keys := rfl
@[simp] theorem setReg_run (x : Reg) (v : Byte) : (s.setReg x v).run = s.run := rfl
@[simp] theorem setReg_waitReg (x : Reg) (v : Byte) : (s.setReg x v).waitReg = s.waitReg := rfl
@[simp] theorem setReg_redrawPending (x : Reg) (v : Byte) : (s.setReg x v).redrawPending = s.redrawPending := rfl
@[simp] theorem setReg_fault (x : Reg) (v : Byte) : (s.setReg x v).fault = s.fault := rfl
@[simp] theorem setReg_warn (x : Reg) (v : Byte) : (s.setReg x v).warn = s.warn := rfl
@[simp] theorem setReg_warnWord (x : Reg) (v : Byte) : (s.setReg x v).warnWord = s.warnWord := rfl
@[simp] theorem setReg_warnPC (x : Reg) (v : Byte) : (s.setReg x v).warnPC = s.warnPC := rfl
@[simp] theorem setReg_params (x : Reg) (v : Byte) : (s.setReg x v).params = s.params := rfl
@[simp] theorem setReg_draws (x : Reg) (v : Byte) : (s.setReg x v).draws = s.draws := rfl
@[simp] theorem setReg_schedule (x : Reg) (v : Byte) : (s.setReg x v).schedule = s.schedule := rfl
@[simp] theorem setReg_later (x : Reg) (v : Byte) : (s.setReg x v).later = s.later := rfl

/-! ## `writeByte` -/

@[simp] theorem writeByte_V (a : Nat) (v : Byte) : (s.writeByte a v).V = s.V := rfl
@[simp] theorem writeByte_I (a : Nat) (v : Byte) : (s.writeByte a v).I = s.I := rfl
@[simp] theorem writeByte_PC (a : Nat) (v : Byte) : (s.writeByte a v).PC = s.PC := rfl
@[simp] theorem writeByte_sp (a : Nat) (v : Byte) : (s.writeByte a v).sp = s.sp := rfl
@[simp] theorem writeByte_stack (a : Nat) (v : Byte) : (s.writeByte a v).stack = s.stack := rfl
@[simp] theorem writeByte_DT (a : Nat) (v : Byte) : (s.writeByte a v).DT = s.DT := rfl
@[simp] theorem writeByte_ST (a : Nat) (v : Byte) : (s.writeByte a v).ST = s.ST := rfl
@[simp] theorem writeByte_mem (a : Nat) (v : Byte) : (s.writeByte a v).mem = Memory.write s.params s.mem a v := rfl
@[simp] theorem writeByte_FB (a : Nat) (v : Byte) : (s.writeByte a v).FB = s.FB := rfl
@[simp] theorem writeByte_keys (a : Nat) (v : Byte) : (s.writeByte a v).keys = s.keys := rfl
@[simp] theorem writeByte_run (a : Nat) (v : Byte) : (s.writeByte a v).run = s.run := rfl
@[simp] theorem writeByte_waitReg (a : Nat) (v : Byte) : (s.writeByte a v).waitReg = s.waitReg := rfl
@[simp] theorem writeByte_redrawPending (a : Nat) (v : Byte) : (s.writeByte a v).redrawPending = s.redrawPending := rfl
@[simp] theorem writeByte_fault (a : Nat) (v : Byte) : (s.writeByte a v).fault = s.fault := rfl
@[simp] theorem writeByte_warn (a : Nat) (v : Byte) : (s.writeByte a v).warn = s.warn := rfl
@[simp] theorem writeByte_warnWord (a : Nat) (v : Byte) : (s.writeByte a v).warnWord = s.warnWord := rfl
@[simp] theorem writeByte_warnPC (a : Nat) (v : Byte) : (s.writeByte a v).warnPC = s.warnPC := rfl
@[simp] theorem writeByte_params (a : Nat) (v : Byte) : (s.writeByte a v).params = s.params := rfl
@[simp] theorem writeByte_draws (a : Nat) (v : Byte) : (s.writeByte a v).draws = s.draws := rfl
@[simp] theorem writeByte_schedule (a : Nat) (v : Byte) : (s.writeByte a v).schedule = s.schedule := rfl
@[simp] theorem writeByte_later (a : Nat) (v : Byte) : (s.writeByte a v).later = s.later := rfl

/-! ## `setKey` -/

@[simp] theorem setKey_V (k : Key) (b : Bool) : (s.setKey k b).V = s.V := rfl
@[simp] theorem setKey_I (k : Key) (b : Bool) : (s.setKey k b).I = s.I := rfl
@[simp] theorem setKey_PC (k : Key) (b : Bool) : (s.setKey k b).PC = s.PC := rfl
@[simp] theorem setKey_sp (k : Key) (b : Bool) : (s.setKey k b).sp = s.sp := rfl
@[simp] theorem setKey_stack (k : Key) (b : Bool) : (s.setKey k b).stack = s.stack := rfl
@[simp] theorem setKey_DT (k : Key) (b : Bool) : (s.setKey k b).DT = s.DT := rfl
@[simp] theorem setKey_ST (k : Key) (b : Bool) : (s.setKey k b).ST = s.ST := rfl
@[simp] theorem setKey_mem (k : Key) (b : Bool) : (s.setKey k b).mem = s.mem := rfl
@[simp] theorem setKey_FB (k : Key) (b : Bool) : (s.setKey k b).FB = s.FB := rfl
@[simp] theorem setKey_keys (k : Key) (b : Bool) : (s.setKey k b).keys = s.keys.set k b := rfl
@[simp] theorem setKey_run (k : Key) (b : Bool) : (s.setKey k b).run = s.run := rfl
@[simp] theorem setKey_waitReg (k : Key) (b : Bool) : (s.setKey k b).waitReg = s.waitReg := rfl
@[simp] theorem setKey_redrawPending (k : Key) (b : Bool) : (s.setKey k b).redrawPending = s.redrawPending := rfl
@[simp] theorem setKey_fault (k : Key) (b : Bool) : (s.setKey k b).fault = s.fault := rfl
@[simp] theorem setKey_warn (k : Key) (b : Bool) : (s.setKey k b).warn = s.warn := rfl
@[simp] theorem setKey_warnWord (k : Key) (b : Bool) : (s.setKey k b).warnWord = s.warnWord := rfl
@[simp] theorem setKey_warnPC (k : Key) (b : Bool) : (s.setKey k b).warnPC = s.warnPC := rfl
@[simp] theorem setKey_params (k : Key) (b : Bool) : (s.setKey k b).params = s.params := rfl
@[simp] theorem setKey_draws (k : Key) (b : Bool) : (s.setKey k b).draws = s.draws := rfl
@[simp] theorem setKey_schedule (k : Key) (b : Bool) : (s.setKey k b).schedule = s.schedule := rfl
@[simp] theorem setKey_later (k : Key) (b : Bool) : (s.setKey k b).later = s.later := rfl

/-! ## `advance` -/

@[simp] theorem advance_V (k : Word) : (s.advance k).V = s.V := rfl
@[simp] theorem advance_I (k : Word) : (s.advance k).I = s.I := rfl
@[simp] theorem advance_PC (k : Word) : (s.advance k).PC = s.PC + k := rfl
@[simp] theorem advance_sp (k : Word) : (s.advance k).sp = s.sp := rfl
@[simp] theorem advance_stack (k : Word) : (s.advance k).stack = s.stack := rfl
@[simp] theorem advance_DT (k : Word) : (s.advance k).DT = s.DT := rfl
@[simp] theorem advance_ST (k : Word) : (s.advance k).ST = s.ST := rfl
@[simp] theorem advance_mem (k : Word) : (s.advance k).mem = s.mem := rfl
@[simp] theorem advance_FB (k : Word) : (s.advance k).FB = s.FB := rfl
@[simp] theorem advance_keys (k : Word) : (s.advance k).keys = s.keys := rfl
@[simp] theorem advance_run (k : Word) : (s.advance k).run = s.run := rfl
@[simp] theorem advance_waitReg (k : Word) : (s.advance k).waitReg = s.waitReg := rfl
@[simp] theorem advance_redrawPending (k : Word) : (s.advance k).redrawPending = s.redrawPending := rfl
@[simp] theorem advance_fault (k : Word) : (s.advance k).fault = s.fault := rfl
@[simp] theorem advance_warn (k : Word) : (s.advance k).warn = s.warn := rfl
@[simp] theorem advance_warnWord (k : Word) : (s.advance k).warnWord = s.warnWord := rfl
@[simp] theorem advance_warnPC (k : Word) : (s.advance k).warnPC = s.warnPC := rfl
@[simp] theorem advance_params (k : Word) : (s.advance k).params = s.params := rfl
@[simp] theorem advance_draws (k : Word) : (s.advance k).draws = s.draws := rfl
@[simp] theorem advance_schedule (k : Word) : (s.advance k).schedule = s.schedule := rfl
@[simp] theorem advance_later (k : Word) : (s.advance k).later = s.later := rfl

/-! ## `next` -/

@[simp] theorem next_V : (s.next).V = s.V := rfl
@[simp] theorem next_I : (s.next).I = s.I := rfl
@[simp] theorem next_PC : (s.next).PC = s.PC + 2 := rfl
@[simp] theorem next_sp : (s.next).sp = s.sp := rfl
@[simp] theorem next_stack : (s.next).stack = s.stack := rfl
@[simp] theorem next_DT : (s.next).DT = s.DT := rfl
@[simp] theorem next_ST : (s.next).ST = s.ST := rfl
@[simp] theorem next_mem : (s.next).mem = s.mem := rfl
@[simp] theorem next_FB : (s.next).FB = s.FB := rfl
@[simp] theorem next_keys : (s.next).keys = s.keys := rfl
@[simp] theorem next_run : (s.next).run = s.run := rfl
@[simp] theorem next_waitReg : (s.next).waitReg = s.waitReg := rfl
@[simp] theorem next_redrawPending : (s.next).redrawPending = s.redrawPending := rfl
@[simp] theorem next_fault : (s.next).fault = s.fault := rfl
@[simp] theorem next_warn : (s.next).warn = s.warn := rfl
@[simp] theorem next_warnWord : (s.next).warnWord = s.warnWord := rfl
@[simp] theorem next_warnPC : (s.next).warnPC = s.warnPC := rfl
@[simp] theorem next_params : (s.next).params = s.params := rfl
@[simp] theorem next_draws : (s.next).draws = s.draws := rfl
@[simp] theorem next_schedule : (s.next).schedule = s.schedule := rfl
@[simp] theorem next_later : (s.next).later = s.later := rfl

/-! ## `jump` -/

@[simp] theorem jump_V (target : Word) : (s.jump target).V = s.V := rfl
@[simp] theorem jump_I (target : Word) : (s.jump target).I = s.I := rfl
@[simp] theorem jump_PC (target : Word) : (s.jump target).PC = target := rfl
@[simp] theorem jump_sp (target : Word) : (s.jump target).sp = s.sp := rfl
@[simp] theorem jump_stack (target : Word) : (s.jump target).stack = s.stack := rfl
@[simp] theorem jump_DT (target : Word) : (s.jump target).DT = s.DT := rfl
@[simp] theorem jump_ST (target : Word) : (s.jump target).ST = s.ST := rfl
@[simp] theorem jump_mem (target : Word) : (s.jump target).mem = s.mem := rfl
@[simp] theorem jump_FB (target : Word) : (s.jump target).FB = s.FB := rfl
@[simp] theorem jump_keys (target : Word) : (s.jump target).keys = s.keys := rfl
@[simp] theorem jump_run (target : Word) : (s.jump target).run = s.run := rfl
@[simp] theorem jump_waitReg (target : Word) : (s.jump target).waitReg = s.waitReg := rfl
@[simp] theorem jump_redrawPending (target : Word) : (s.jump target).redrawPending = s.redrawPending := rfl
@[simp] theorem jump_fault (target : Word) : (s.jump target).fault = s.fault := rfl
@[simp] theorem jump_warn (target : Word) : (s.jump target).warn = s.warn := rfl
@[simp] theorem jump_warnWord (target : Word) : (s.jump target).warnWord = s.warnWord := rfl
@[simp] theorem jump_warnPC (target : Word) : (s.jump target).warnPC = s.warnPC := rfl
@[simp] theorem jump_params (target : Word) : (s.jump target).params = s.params := rfl
@[simp] theorem jump_draws (target : Word) : (s.jump target).draws = s.draws := rfl
@[simp] theorem jump_schedule (target : Word) : (s.jump target).schedule = s.schedule := rfl
@[simp] theorem jump_later (target : Word) : (s.jump target).later = s.later := rfl

/-! ## `raise` -/

@[simp] theorem raise_V (f : FaultRecord) : (s.raise f).V = s.V := rfl
@[simp] theorem raise_I (f : FaultRecord) : (s.raise f).I = s.I := rfl
@[simp] theorem raise_PC (f : FaultRecord) : (s.raise f).PC = s.PC := rfl
@[simp] theorem raise_sp (f : FaultRecord) : (s.raise f).sp = s.sp := rfl
@[simp] theorem raise_stack (f : FaultRecord) : (s.raise f).stack = s.stack := rfl
@[simp] theorem raise_DT (f : FaultRecord) : (s.raise f).DT = s.DT := rfl
@[simp] theorem raise_ST (f : FaultRecord) : (s.raise f).ST = s.ST := rfl
@[simp] theorem raise_mem (f : FaultRecord) : (s.raise f).mem = s.mem := rfl
@[simp] theorem raise_FB (f : FaultRecord) : (s.raise f).FB = s.FB := rfl
@[simp] theorem raise_keys (f : FaultRecord) : (s.raise f).keys = s.keys := rfl
@[simp] theorem raise_run (f : FaultRecord) : (s.raise f).run = .faulted := rfl
@[simp] theorem raise_waitReg (f : FaultRecord) : (s.raise f).waitReg = s.waitReg := rfl
@[simp] theorem raise_redrawPending (f : FaultRecord) : (s.raise f).redrawPending = s.redrawPending := rfl
@[simp] theorem raise_fault (f : FaultRecord) : (s.raise f).fault = f := rfl
@[simp] theorem raise_warn (f : FaultRecord) : (s.raise f).warn = s.warn := rfl
@[simp] theorem raise_warnWord (f : FaultRecord) : (s.raise f).warnWord = s.warnWord := rfl
@[simp] theorem raise_warnPC (f : FaultRecord) : (s.raise f).warnPC = s.warnPC := rfl
@[simp] theorem raise_params (f : FaultRecord) : (s.raise f).params = s.params := rfl
@[simp] theorem raise_draws (f : FaultRecord) : (s.raise f).draws = s.draws := rfl
@[simp] theorem raise_schedule (f : FaultRecord) : (s.raise f).schedule = s.schedule := rfl
@[simp] theorem raise_later (f : FaultRecord) : (s.raise f).later = s.later := rfl

/-! ## `warnUnknown` -/

@[simp] theorem warnUnknown_V (w : Word) : (s.warnUnknown w).V = s.V := rfl
@[simp] theorem warnUnknown_I (w : Word) : (s.warnUnknown w).I = s.I := rfl
@[simp] theorem warnUnknown_PC (w : Word) : (s.warnUnknown w).PC = s.PC + 2 := rfl
@[simp] theorem warnUnknown_sp (w : Word) : (s.warnUnknown w).sp = s.sp := rfl
@[simp] theorem warnUnknown_stack (w : Word) : (s.warnUnknown w).stack = s.stack := rfl
@[simp] theorem warnUnknown_DT (w : Word) : (s.warnUnknown w).DT = s.DT := rfl
@[simp] theorem warnUnknown_ST (w : Word) : (s.warnUnknown w).ST = s.ST := rfl
@[simp] theorem warnUnknown_mem (w : Word) : (s.warnUnknown w).mem = s.mem := rfl
@[simp] theorem warnUnknown_FB (w : Word) : (s.warnUnknown w).FB = s.FB := rfl
@[simp] theorem warnUnknown_keys (w : Word) : (s.warnUnknown w).keys = s.keys := rfl
@[simp] theorem warnUnknown_run (w : Word) : (s.warnUnknown w).run = s.run := rfl
@[simp] theorem warnUnknown_waitReg (w : Word) : (s.warnUnknown w).waitReg = s.waitReg := rfl
@[simp] theorem warnUnknown_redrawPending (w : Word) : (s.warnUnknown w).redrawPending = s.redrawPending := rfl
@[simp] theorem warnUnknown_fault (w : Word) : (s.warnUnknown w).fault = s.fault := rfl
@[simp] theorem warnUnknown_warn (w : Word) : (s.warnUnknown w).warn = true := rfl
@[simp] theorem warnUnknown_warnWord (w : Word) : (s.warnUnknown w).warnWord = w := rfl
@[simp] theorem warnUnknown_warnPC (w : Word) : (s.warnUnknown w).warnPC = s.PC := rfl
@[simp] theorem warnUnknown_params (w : Word) : (s.warnUnknown w).params = s.params := rfl
@[simp] theorem warnUnknown_draws (w : Word) : (s.warnUnknown w).draws = s.draws := rfl
@[simp] theorem warnUnknown_schedule (w : Word) : (s.warnUnknown w).schedule = s.schedule := rfl
@[simp] theorem warnUnknown_later (w : Word) : (s.warnUnknown w).later = s.later := rfl

/-! ## `pop` -/

@[simp] theorem pop_V : (s.pop).V = s.V := rfl
@[simp] theorem pop_I : (s.pop).I = s.I := rfl
@[simp] theorem pop_PC : (s.pop).PC = s.PC := rfl
@[simp] theorem pop_stack : (s.pop).stack = s.stack := rfl
@[simp] theorem pop_DT : (s.pop).DT = s.DT := rfl
@[simp] theorem pop_ST : (s.pop).ST = s.ST := rfl
@[simp] theorem pop_mem : (s.pop).mem = s.mem := rfl
@[simp] theorem pop_FB : (s.pop).FB = s.FB := rfl
@[simp] theorem pop_keys : (s.pop).keys = s.keys := rfl
@[simp] theorem pop_run : (s.pop).run = s.run := rfl
@[simp] theorem pop_waitReg : (s.pop).waitReg = s.waitReg := rfl
@[simp] theorem pop_redrawPending : (s.pop).redrawPending = s.redrawPending := rfl
@[simp] theorem pop_fault : (s.pop).fault = s.fault := rfl
@[simp] theorem pop_warn : (s.pop).warn = s.warn := rfl
@[simp] theorem pop_warnWord : (s.pop).warnWord = s.warnWord := rfl
@[simp] theorem pop_warnPC : (s.pop).warnPC = s.warnPC := rfl
@[simp] theorem pop_params : (s.pop).params = s.params := rfl
@[simp] theorem pop_draws : (s.pop).draws = s.draws := rfl
@[simp] theorem pop_schedule : (s.pop).schedule = s.schedule := rfl
@[simp] theorem pop_later : (s.pop).later = s.later := rfl

/-! ## `setFlag` -/

@[simp] theorem setFlag_V (b : Bool) : (s.setFlag b).V = s.V.set flagReg (flagByte b) := rfl
@[simp] theorem setFlag_I (b : Bool) : (s.setFlag b).I = s.I := rfl
@[simp] theorem setFlag_PC (b : Bool) : (s.setFlag b).PC = s.PC := rfl
@[simp] theorem setFlag_sp (b : Bool) : (s.setFlag b).sp = s.sp := rfl
@[simp] theorem setFlag_stack (b : Bool) : (s.setFlag b).stack = s.stack := rfl
@[simp] theorem setFlag_DT (b : Bool) : (s.setFlag b).DT = s.DT := rfl
@[simp] theorem setFlag_ST (b : Bool) : (s.setFlag b).ST = s.ST := rfl
@[simp] theorem setFlag_mem (b : Bool) : (s.setFlag b).mem = s.mem := rfl
@[simp] theorem setFlag_FB (b : Bool) : (s.setFlag b).FB = s.FB := rfl
@[simp] theorem setFlag_keys (b : Bool) : (s.setFlag b).keys = s.keys := rfl
@[simp] theorem setFlag_run (b : Bool) : (s.setFlag b).run = s.run := rfl
@[simp] theorem setFlag_waitReg (b : Bool) : (s.setFlag b).waitReg = s.waitReg := rfl
@[simp] theorem setFlag_redrawPending (b : Bool) : (s.setFlag b).redrawPending = s.redrawPending := rfl
@[simp] theorem setFlag_fault (b : Bool) : (s.setFlag b).fault = s.fault := rfl
@[simp] theorem setFlag_warn (b : Bool) : (s.setFlag b).warn = s.warn := rfl
@[simp] theorem setFlag_warnWord (b : Bool) : (s.setFlag b).warnWord = s.warnWord := rfl
@[simp] theorem setFlag_warnPC (b : Bool) : (s.setFlag b).warnPC = s.warnPC := rfl
@[simp] theorem setFlag_params (b : Bool) : (s.setFlag b).params = s.params := rfl
@[simp] theorem setFlag_draws (b : Bool) : (s.setFlag b).draws = s.draws := rfl
@[simp] theorem setFlag_schedule (b : Bool) : (s.setFlag b).schedule = s.schedule := rfl
@[simp] theorem setFlag_later (b : Bool) : (s.setFlag b).later = s.later := rfl

/-! ## `skip` and `push`, which choose -/

theorem skip_eq (c : Bool) : s.skip c = { s with PC := s.PC + if c then 4 else 2 } := by cases c <;> rfl

@[simp] theorem skip_V (c : Bool) : (s.skip c).V = s.V := by cases c <;> rfl
@[simp] theorem skip_I (c : Bool) : (s.skip c).I = s.I := by cases c <;> rfl
@[simp] theorem skip_PC (c : Bool) : (s.skip c).PC = s.PC + if c then 4 else 2 := by cases c <;> rfl
@[simp] theorem skip_sp (c : Bool) : (s.skip c).sp = s.sp := by cases c <;> rfl
@[simp] theorem skip_stack (c : Bool) : (s.skip c).stack = s.stack := by cases c <;> rfl
@[simp] theorem skip_DT (c : Bool) : (s.skip c).DT = s.DT := by cases c <;> rfl
@[simp] theorem skip_ST (c : Bool) : (s.skip c).ST = s.ST := by cases c <;> rfl
@[simp] theorem skip_mem (c : Bool) : (s.skip c).mem = s.mem := by cases c <;> rfl
@[simp] theorem skip_FB (c : Bool) : (s.skip c).FB = s.FB := by cases c <;> rfl
@[simp] theorem skip_keys (c : Bool) : (s.skip c).keys = s.keys := by cases c <;> rfl
@[simp] theorem skip_run (c : Bool) : (s.skip c).run = s.run := by cases c <;> rfl
@[simp] theorem skip_waitReg (c : Bool) : (s.skip c).waitReg = s.waitReg := by cases c <;> rfl
@[simp] theorem skip_redrawPending (c : Bool) : (s.skip c).redrawPending = s.redrawPending := by cases c <;> rfl
@[simp] theorem skip_fault (c : Bool) : (s.skip c).fault = s.fault := by cases c <;> rfl
@[simp] theorem skip_warn (c : Bool) : (s.skip c).warn = s.warn := by cases c <;> rfl
@[simp] theorem skip_warnWord (c : Bool) : (s.skip c).warnWord = s.warnWord := by cases c <;> rfl
@[simp] theorem skip_warnPC (c : Bool) : (s.skip c).warnPC = s.warnPC := by cases c <;> rfl
@[simp] theorem skip_params (c : Bool) : (s.skip c).params = s.params := by cases c <;> rfl
@[simp] theorem skip_draws (c : Bool) : (s.skip c).draws = s.draws := by cases c <;> rfl
@[simp] theorem skip_schedule (c : Bool) : (s.skip c).schedule = s.schedule := by cases c <;> rfl
@[simp] theorem skip_later (c : Bool) : (s.skip c).later = s.later := by cases c <;> rfl

theorem push_of_room (v : Word) (h : s.sp.val < 16) :
    s.push v = { s with stack := s.stack.set s.sp.val v, sp := ⟨s.sp.val + 1, by omega⟩ } := dif_pos h

theorem push_of_full (v : Word) (h : ¬ s.sp.val < 16) : s.push v = s := dif_neg h

@[simp] theorem push_V (v : Word) : (s.push v).V = s.V := by unfold push; split <;> rfl
@[simp] theorem push_I (v : Word) : (s.push v).I = s.I := by unfold push; split <;> rfl
@[simp] theorem push_PC (v : Word) : (s.push v).PC = s.PC := by unfold push; split <;> rfl
@[simp] theorem push_DT (v : Word) : (s.push v).DT = s.DT := by unfold push; split <;> rfl
@[simp] theorem push_ST (v : Word) : (s.push v).ST = s.ST := by unfold push; split <;> rfl
@[simp] theorem push_mem (v : Word) : (s.push v).mem = s.mem := by unfold push; split <;> rfl
@[simp] theorem push_FB (v : Word) : (s.push v).FB = s.FB := by unfold push; split <;> rfl
@[simp] theorem push_keys (v : Word) : (s.push v).keys = s.keys := by unfold push; split <;> rfl
@[simp] theorem push_run (v : Word) : (s.push v).run = s.run := by unfold push; split <;> rfl
@[simp] theorem push_waitReg (v : Word) : (s.push v).waitReg = s.waitReg := by unfold push; split <;> rfl
@[simp] theorem push_redrawPending (v : Word) : (s.push v).redrawPending = s.redrawPending := by unfold push; split <;> rfl
@[simp] theorem push_fault (v : Word) : (s.push v).fault = s.fault := by unfold push; split <;> rfl
@[simp] theorem push_warn (v : Word) : (s.push v).warn = s.warn := by unfold push; split <;> rfl
@[simp] theorem push_warnWord (v : Word) : (s.push v).warnWord = s.warnWord := by unfold push; split <;> rfl
@[simp] theorem push_warnPC (v : Word) : (s.push v).warnPC = s.warnPC := by unfold push; split <;> rfl
@[simp] theorem push_params (v : Word) : (s.push v).params = s.params := by unfold push; split <;> rfl
@[simp] theorem push_draws (v : Word) : (s.push v).draws = s.draws := by unfold push; split <;> rfl
@[simp] theorem push_schedule (v : Word) : (s.push v).schedule = s.schedule := by unfold push; split <;> rfl
@[simp] theorem push_later (v : Word) : (s.push v).later = s.later := by unfold push; split <;> rfl

@[simp] theorem pop_sp_val : s.pop.sp.val = s.sp.val - 1 := rfl

end Sys2Proof.Machine.State
end

