-- ==== Sys2Proof/Laws/Operands.lean ====
section
/-! SUPPORT. Reading a register, a byte, a cell or a key after each write to one; the operands of the block transfers. -/

namespace Sys2Proof.Machine

variable (s : State)

/-! ## Registers -/

theorem State.reg_eq (x : Reg) : s.reg x = s.V[x] := rfl

theorem State.V_set_get (V : Vector Byte 16) (x r : Reg) (v : Byte) :
    (V.set x v)[r] = if r = x then v else V[r] := by
  by_cases hr : r = x
  · subst hr; simp
  · have : x.val ≠ r.val := fun e => hr (Fin.ext e.symm)
    simp [hr, this]

/-- The same with the index as simp writes it. -/
@[simp] theorem State.V_set_getElem (V : Vector Byte 16) (x r : Reg) (v : Byte) :
    (V.set x.val v)[r.val] = if r = x then v else V[r.val] := State.V_set_get V x r v

/-- The key latch after one key is written. -/
@[simp] theorem State.keys_set_getElem (latch : Vector Bool 16) (k j : Key) (b : Bool) :
    (latch.set k.val b)[j.val] = if j = k then b else latch[j.val] := by
  by_cases hj : j = k
  · subst hj; simp
  · have : k.val ≠ j.val := fun e => hj (Fin.ext e.symm)
    simp [hj, this]

theorem State.reg_setReg (x r : Reg) (v : Byte) : (s.setReg x v).reg r = if r = x then v else s.reg r :=
  State.V_set_get s.V x r v

/-- What the two writes of a flag writer leave in each register (R80(d)). -/
theorem writeFlagged_reg (x r : Reg) (flag : Bool) (result : Byte) :
    (writeFlagged s x flag result).reg r =
      if r = x then result else if r = flagReg then flagByte flag else s.reg r := by
  rw [writeFlagged, State.reg_setReg, State.setFlag, State.reg_setReg]

/-- A flag writer changes the registers only. -/
theorem writeFlagged_eq (x : Reg) (flag : Bool) (result : Byte) :
    writeFlagged s x flag result = { s with V := (s.V.set flagReg (flagByte flag)).set x result } := rfl

theorem flagByte_zero_or_one (b : Bool) : flagByte b = 0#8 ∨ flagByte b = 1#8 := by cases b <;> decide

/-! ## Memory -/

@[simp] theorem State.byte_writeByte (a b : Nat) (v : Byte) :
    (s.writeByte a v).byte b = if b = a then v else s.byte b := Memory.read_write s.params s.mem a b v

/-- Two states with the same memory and parameters read alike. -/
theorem State.byte_congr {s t : State} (hm : t.mem = s.mem) (hp : t.params = s.params) (a : Nat) :
    t.byte a = s.byte a := by
  rw [State.byte, State.byte, hm, hp]

/-- `storeDigits` changes memory only. -/
theorem storeDigits_eq (v : Byte) : storeDigits s v = { s with mem := (storeDigits s v).mem } := rfl

theorem storeDigits_byte (v : Byte) (a : Nat) :
    (storeDigits s v).byte a =
      if a = effAddr s 2 then onesDigit v else if a = effAddr s 1 then tensDigit v
      else if a = effAddr s 0 then hundredsDigit v else s.byte a := by
  rw [storeDigits, State.byte_writeByte, State.byte_writeByte, State.byte_writeByte]

/-! ## The block transfers -/

theorem mem_regsUpTo (x i : Reg) : i ∈ regsUpTo x ↔ i ≤ x := by simp [regsUpTo]

theorem nodup_regsUpTo (x : Reg) : (regsUpTo x).Nodup := (List.nodup_finRange 16).filter _

/-- Storing registers changes memory only, and puts each register of the list at its address. -/
theorem storeList_spec (l : List Reg) (hl : l.Nodup) :
    let t := l.foldl (fun t i => t.writeByte (effAddr t i.val) (t.reg i)) s
    t = { s with mem := t.mem } ∧ (∀ i ∈ l, t.byte (effAddr s i.val) = s.reg i) ∧
      ∀ a, (∀ i ∈ l, a ≠ effAddr s i.val) → t.byte a = s.byte a := by
  induction l generalizing s with
  | nil => exact ⟨rfl, by simp, fun a _ => rfl⟩
  | cons i l ih =>
    obtain ⟨hi, hl⟩ := List.nodup_cons.1 hl
    obtain ⟨h1, h2, h3⟩ := ih (s.writeByte (effAddr s i.val) (s.reg i)) hl
    refine ⟨by rw [List.foldl_cons]; exact h1.trans rfl, ?_, ?_⟩
    · intro j hj
      rw [List.foldl_cons]
      rcases List.mem_cons.1 hj with rfl | hj
      · refine (h3 _ fun k hk => ?_).trans (by rw [State.byte_writeByte, if_pos rfl])
        have : j.val ≠ k.val := fun e => hi (Fin.ext e ▸ hk)
        show s.I.toNat + j.val ≠ s.I.toNat + k.val
        omega
      · exact (h2 j hj).trans rfl
    · intro a ha
      rw [List.foldl_cons]
      refine (h3 a fun k hk => ha k (List.mem_cons_of_mem _ hk)).trans ?_
      rw [State.byte_writeByte, if_neg (ha i List.mem_cons_self)]

/-- Loading registers changes the registers only: those of the list, each from its address. -/
theorem loadList_spec (l : List Reg) :
    let t := l.foldl (fun t i => t.setReg i (t.byte (effAddr t i.val))) s
    t = { s with V := t.V } ∧ ∀ r, t.reg r = if r ∈ l then s.byte (effAddr s r.val) else s.reg r := by
  induction l generalizing s with
  | nil => exact ⟨rfl, fun r => by simp⟩
  | cons i l ih =>
    obtain ⟨h1, h2⟩ := ih (s.setReg i (s.byte (effAddr s i.val)))
    refine ⟨by rw [List.foldl_cons]; exact h1.trans rfl, fun r => ?_⟩
    rw [List.foldl_cons]
    refine (h2 r).trans ?_
    rw [State.reg_setReg]
    by_cases hr : r ∈ l
    · rw [if_pos hr, if_pos (List.mem_cons_of_mem _ hr)]; rfl
    · by_cases hi : r = i
      · subst hi; simp [hr]
      · simp [hr, hi]

/-- What `Fx55` stores (R125). -/
theorem storeRegs_spec (x : Reg) :
    storeRegs s x = { s with mem := (storeRegs s x).mem } ∧
      (∀ i : Reg, i ≤ x → (storeRegs s x).byte (effAddr s i.val) = s.reg i) ∧
      ∀ a, (a < effAddr s 0 ∨ effAddr s x.val < a) → (storeRegs s x).byte a = s.byte a := by
  obtain ⟨h1, h2, h3⟩ := storeList_spec s (regsUpTo x) (nodup_regsUpTo x)
  refine ⟨h1, fun i hi => h2 i ((mem_regsUpTo x i).2 hi), fun a ha => h3 a fun i hi => ?_⟩
  have : i.val ≤ x.val := (mem_regsUpTo x i).1 hi
  simp only [effAddr] at *
  omega

/-- What `Fx65` loads (R126). -/
theorem loadRegs_spec (x : Reg) :
    loadRegs s x = { s with V := (loadRegs s x).V } ∧
      ∀ r : Reg, (loadRegs s x).reg r = if r ≤ x then s.byte (effAddr s r.val) else s.reg r := by
  obtain ⟨h1, h2⟩ := loadList_spec s (regsUpTo x)
  exact ⟨h1, fun r => by rw [loadRegs, h2 r]; simp [mem_regsUpTo]⟩

end Sys2Proof.Machine
end

