-- ==== Sys2Proof/Laws/Ops.lean ====
section
/-! SUPPORT. What the shared operations can do: the checks, the guarded effect, and one lemma for every instruction. -/

namespace Sys2Proof.Machine

variable (s : State)

/-! ## The checks (R167) -/

theorem callCheck_eq_none (nnn : Addr12) : callCheck nnn s = .none ↔ s.sp.val ≠ 16 := by
  unfold callCheck; split <;> simp_all

theorem retCheck_eq_none : retCheck s = .none ↔ s.sp.val ≠ 0 := by
  unfold retCheck; split <;> simp_all

theorem spanCheck_eq_none (count : Nat) :
    spanCheck count s = .none ↔ count = 0 ∨ effAddr s (count - 1) ≤ 4095 := by
  unfold spanCheck
  split
  · next h => simp only [reduceCtorEq, false_iff]; simp only [Config.addrMax] at h; omega
  · next h => simp only [true_iff]; simp only [Config.addrMax] at h; omega

theorem spanCheck_of_past (count : Nat) (h : 0 < count) (ha : effAddr s (count - 1) > 4095) :
    spanCheck count s = .addressOutOfRange s.PC (effAddr s (count - 1)) := if_pos ⟨h, ha⟩

theorem keyCheck_eq_none (x : Reg) : keyCheck x s = .none ↔ (s.reg x).toNat ≤ 15 := by
  unfold keyCheck; split <;> simp_all

/-! ## The guarded effect (R168) -/

@[simp] theorem guarded_none (t : State) : guarded .none s t = .next t := rfl

theorem guarded_of_ne_none {f : FaultRecord} (t : State) (h : f ≠ .none) : guarded f s t = .next (s.raise f) := by
  cases f <;> first | exact absurd rfl h | rfl

/-- What a guarded effect can answer: the effect when the check passes, fault entry when it does not. -/
theorem guarded_cases {f : FaultRecord} {t u : State} (h : guarded f s t = .next u) :
    (f = .none ∧ u = t) ∨ (f ≠ .none ∧ u = s.raise f) := by
  by_cases hf : f = .none
  · subst hf; exact .inl ⟨rfl, (Host.Outcome.next.inj h).symm⟩
  · rw [guarded_of_ne_none s t hf] at h; exact .inr ⟨hf, (Host.Outcome.next.inj h).symm⟩

/-- Every instruction is a guarded effect under its execute-stage check, an instruction with no check under none. -/
theorem exec_eq_guarded (i : Instr) : ∃ effect, exec i s = guarded (executeCheck i s) s effect := by
  cases i <;> exact ⟨_, rfl⟩

/-! ## The outcome of an instruction (R8) -/

theorem instrOutcome_of_fault {i : Instr} (h : executeCheck i s ≠ .none) :
    instrOutcome i s = .faulted (executeCheck i s) := by
  unfold instrOutcome
  split
  · next e => exact absurd e h
  · rfl

theorem instrOutcome_of_hold {i : Instr} (h : executeCheck i s = .none) (hd : directive i s = .hold) :
    instrOutcome i s = .hold := by
  simp [instrOutcome, h, hd]

theorem instrOutcome_of_ok {i : Instr} (h : executeCheck i s = .none) (hd : directive i s ≠ .hold) :
    instrOutcome i s = .ok (directive i s) := by
  unfold instrOutcome
  rw [h]
  cases e : directive i s <;> first | rfl | exact absurd e hd

/-- Only `Fx0A` holds (R13). -/
theorem directive_hold_iff {i : Instr} : directive i s = .hold ↔ ∃ x, i = .ldKey x := by
  constructor
  · intro h
    cases i
    case ldKey x => exact ⟨x, rfl⟩
    all_goals simp [directive, skipDirective] at h
    all_goals split at h <;> cases h
  · rintro ⟨x, rfl⟩; rfl

/-! ## The framebuffer -/

theorem fb_set_get (fb : Framebuffer) (px qx : Fin 64) (py qy : Fin 32) (b : Bool) :
    (fb.set py (fb[py].set px b))[qy][qx] = if qx = px ∧ qy = py then b else fb[qy][qx] := by
  have hrow : (fb.set py (fb[py].set px b))[qy] = if py.val = qy.val then fb[py].set px b else fb[qy] :=
    Vector.getElem_set (xs := fb) (x := fb[py].set px b) py.isLt qy.isLt
  have hcell : (fb[py].set px b)[qx] = if px.val = qx.val then b else fb[py][qx] :=
    Vector.getElem_set (xs := fb[py]) (x := b) px.isLt qx.isLt
  rw [hrow]
  by_cases h : py = qy
  · subst h
    rw [if_pos rfl, hcell]
    by_cases hx : px = qx
    · subst hx; simp
    · rw [if_neg (fun e => hx (Fin.ext e)), if_neg (fun e => hx e.1.symm)]
  · rw [if_neg (fun e => h (Fin.ext e)), if_neg (fun e => h e.2.symm)]

/-- A blank framebuffer has every cell 0 (R141). -/
theorem blankFramebuffer_get (px : Fin 64) (py : Fin 32) : blankFramebuffer[py][px] = false := by
  simp [blankFramebuffer]

/-- Two framebuffers with equal cells are equal. -/
theorem framebuffer_ext {f g : Framebuffer} (h : ∀ (px : Fin 64) (py : Fin 32), f[py][px] = g[py][px]) : f = g := by
  apply Vector.ext
  intro i hi
  apply Vector.ext
  intro j hj
  exact h ⟨j, hj⟩ ⟨i, hi⟩

end Sys2Proof.Machine
end

