-- ==== Sys2Proof/Laws/Display.lean ====
section
/-! SUPPORT. What drawing does to the cells and to the collision flag: one cell, one row, a sprite (spec R142). -/

namespace Sys2Proof.Machine

theorem flipCell_cell (px qx : Fin 64) (py qy : Fin 32) (d : DrawState) :
    (flipCell px py d).fb[qy][qx] = if qx = px ∧ qy = py then !d.fb[py][px] else d.fb[qy][qx] :=
  fb_set_get d.fb px qx py qy _

/-- `d'` is `d` with the cells of `S` flipped, and with a collision exactly when there was one or a cell of `S` was set. -/
structure Flips (S : Fin 64 → Fin 32 → Prop) (d d' : DrawState) : Prop where
  inside : ∀ px py, S px py → d'.fb[py][px] = !d.fb[py][px]
  outside : ∀ px py, ¬ S px py → d'.fb[py][px] = d.fb[py][px]
  collides : d'.collision = true ↔ d.collision = true ∨ ∃ px py, S px py ∧ d.fb[py][px] = true

theorem Flips.congr {S T : Fin 64 → Fin 32 → Prop} {d d' : DrawState} (h : Flips S d d')
    (e : ∀ px py, S px py ↔ T px py) : Flips T d d' := by
  have : S = T := by funext px py; exact propext (e px py)
  exact this ▸ h

theorem Flips.refl (d : DrawState) : Flips (fun _ _ => False) d d := ⟨nofun, fun _ _ _ => rfl, by simp⟩

/-- Flipping two sets of cells that have none in common flips both. -/
theorem Flips.trans {S T : Fin 64 → Fin 32 → Prop} {d d' d'' : DrawState} (h : Flips S d d') (h' : Flips T d' d'')
    (disjoint : ∀ px py, S px py → ¬ T px py) : Flips (fun px py => S px py ∨ T px py) d d'' where
  inside px py hst := by
    rcases hst with hs | ht
    · rw [h'.outside _ _ (disjoint _ _ hs), h.inside _ _ hs]
    · rw [h'.inside _ _ ht, h.outside _ _ (fun hs => disjoint _ _ hs ht)]
  outside px py hst := by rw [h'.outside _ _ (fun ht => hst (.inr ht)), h.outside _ _ (fun hs => hst (.inl hs))]
  collides := by
    rw [h'.collides, h.collides, or_assoc]
    refine or_congr_right ⟨?_, ?_⟩
    · rintro (⟨px, py, hs, hc⟩ | ⟨px, py, ht, hc⟩)
      · exact ⟨px, py, .inl hs, hc⟩
      · exact ⟨px, py, .inr ht, by rwa [h.outside _ _ (fun hs => disjoint _ _ hs ht)] at hc⟩
    · rintro ⟨px, py, hs | ht, hc⟩
      · exact .inl ⟨px, py, hs, hc⟩
      · exact .inr ⟨px, py, ht, by rwa [h.outside _ _ (fun hs => disjoint _ _ hs ht)]⟩

theorem flips_flipCell (px : Fin 64) (py : Fin 32) (d : DrawState) :
    Flips (fun qx qy => qx = px ∧ qy = py) d (flipCell px py d) where
  inside qx qy h := by rw [flipCell_cell, if_pos h, h.1, h.2]
  outside qx qy h := by rw [flipCell_cell, if_neg h]
  collides := by
    simp only [flipCell, Bool.or_eq_true]
    refine or_congr_right ⟨fun h => ⟨px, py, ⟨rfl, rfl⟩, h⟩, ?_⟩
    rintro ⟨qx, qy, ⟨rfl, rfl⟩, h⟩
    exact h

/-- The cells that the first `m` bits of a row fall on. -/
theorem flips_drawCols (b x0 : Byte) (py : Fin 32) (m : Nat) (hm : m ≤ 8) (d : DrawState) :
    Flips (fun qx qy => qy = py ∧ ∃ col < m, wrapX x0 col = qx ∧ spriteBit b col = true) d
      ((List.range m).foldl (fun d col => if spriteBit b col then flipCell (wrapX x0 col) py d else d) d) := by
  induction m with
  | zero => exact (Flips.refl d).congr fun _ _ => by simp
  | succ m ih =>
    rw [List.range_succ, List.foldl_append, List.foldl_cons, List.foldl_nil]
    by_cases hb : spriteBit b m = true
    · rw [if_pos hb]
      refine ((ih (by omega)).trans (flips_flipCell _ _ _) ?_).congr fun qx qy => ?_
      · rintro qx qy ⟨-, col, hcol, hx, -⟩ ⟨hx', -⟩
        have := Fin.ext_iff.1 (hx.trans hx')
        simp only [wrapX] at this
        omega
      · constructor
        · rintro (⟨hy, col, hcol, h⟩ | ⟨hx, hy⟩)
          · exact ⟨hy, col, by omega, h⟩
          · exact ⟨hy, m, by omega, hx.symm, hb⟩
        · rintro ⟨hy, col, hcol, hx, hs⟩
          by_cases hcm : col = m
          · subst hcm; exact .inr ⟨hx.symm, hy⟩
          · exact .inl ⟨hy, col, by omega, hx, hs⟩
    · rw [if_neg hb]
      refine (ih (by omega)).congr fun qx qy => and_congr_right fun _ => ?_
      constructor
      · rintro ⟨col, hcol, h⟩; exact ⟨col, by omega, h⟩
      · rintro ⟨col, hcol, hx, hs⟩
        have : col ≠ m := fun e => hb (e ▸ hs)
        exact ⟨col, by omega, hx, hs⟩

/-- One row of a sprite (R142). -/
theorem flips_drawRow (b x0 : Byte) (py : Fin 32) (d : DrawState) :
    Flips (fun qx qy => qy = py ∧ ∃ col < 8, wrapX x0 col = qx ∧ spriteBit b col = true) d (drawRow b x0 py d) :=
  flips_drawCols b x0 py 8 le_rfl d

/-- A sprite of at most 32 rows: no two rows fall on one row of the screen (R142). -/
theorem flips_drawRows (s : State) (x0 y0 : Byte) (n : Nat) (hn : n ≤ 32) (d : DrawState) :
    Flips (fun qx qy => ∃ row < n, wrapY y0 row = qy ∧
        ∃ col < 8, wrapX x0 col = qx ∧ spriteBit (s.byte (effAddr s row)) col = true) d
      ((List.range n).foldl (fun d row => drawRow (s.byte (effAddr s row)) x0 (wrapY y0 row) d) d) := by
  induction n with
  | zero => exact (Flips.refl d).congr fun _ _ => by simp
  | succ n ih =>
    rw [List.range_succ, List.foldl_append, List.foldl_cons, List.foldl_nil]
    refine ((ih (by omega)).trans (flips_drawRow _ _ _ _) ?_).congr fun qx qy => ?_
    · rintro qx qy ⟨row, hrow, hy, -⟩ ⟨hy', -⟩
      have := Fin.ext_iff.1 (hy.trans hy')
      simp only [wrapY] at this
      omega
    · constructor
      · rintro (⟨row, hrow, h⟩ | ⟨hy, h⟩)
        · exact ⟨row, by omega, h⟩
        · exact ⟨n, by omega, hy.symm, h⟩
      · rintro ⟨row, hrow, hy, h⟩
        by_cases hrn : row = n
        · subst hrn; exact .inr ⟨hy.symm, h⟩
        · exact .inl ⟨row, by omega, hy, h⟩

/-- What `Dxyn` draws: the cells of the sprite are flipped, and the flag says whether one of them was set (R142). -/
theorem flips_drawSprite (s : State) (x0 y0 : Byte) (n : Nat) (hn : n ≤ 32) :
    Flips (fun qx qy => ∃ row < n, wrapY y0 row = qy ∧
        ∃ col < 8, wrapX x0 col = qx ∧ spriteBit (s.byte (effAddr s row)) col = true)
      ⟨s.FB, false⟩ (drawSprite s x0 y0 n) := flips_drawRows s x0 y0 n hn _

end Sys2Proof.Machine
end

