-- ==== Sys2Proof/Laws/Step.lean ====
section
/-! SUPPORT. Which transition a step fires, and the cases of `Step()` (spec R8, R167, R180). -/

namespace Sys2Proof.Machine

variable (s : State)

theorem canFetch_iff : canFetch s = true ↔ s.PC.toNat ≤ 4094 := by rw [canFetch, decide_eq_true_iff, Config.fetchMax]

/-! ## Which transition fires next (R180) -/

theorem step_eq_fire : step s = fire (nextMove s).1 (nextMove s).2 := rfl

theorem fire_step : fire .step s = cycle s := rfl

variable (source : Nat → Transition)

theorem nextMoveFrom_of_scheduled {t : Transition} {rest : List Transition} (h : s.schedule = t :: rest) :
    nextMoveFrom source s = (t, { s with schedule := rest }) := by simp [nextMoveFrom, h]

theorem nextMoveFrom_of_quiet (h : s.schedule = []) (hl : s.later = .repeating []) :
    nextMoveFrom source s = (.step, s) := by simp [nextMoveFrom, h, hl]

theorem nextMoveFrom_of_repeating {t : Transition} {rest : List Transition} (h : s.schedule = [])
    (hl : s.later = .repeating (t :: rest)) : nextMoveFrom source s = (t, { s with schedule := rest }) := by
  simp [nextMoveFrom, h, hl]

theorem nextMoveFrom_of_free {turn : Nat} (h : s.schedule = []) (hl : s.later = .free turn) :
    nextMoveFrom source s = (source turn, { s with later := .free (turn + 1) }) := by
  simp [nextMoveFrom, h, hl]

/-- Taking the next transition off changes only the record of who moves next. -/
theorem nextMoveFrom_eq : ∃ l w, (nextMoveFrom source s).2 = { s with schedule := l, later := w } := by
  unfold nextMoveFrom
  split
  · exact ⟨_, _, rfl⟩
  · split <;> exact ⟨_, _, rfl⟩

/-- With no other agent to move the step is `Step()`. -/
theorem step_eq_cycle (h : s.schedule = []) (hl : s.later = .repeating []) : step s = cycle s := by
  rw [step_eq_fire, nextMove, nextMoveFrom_of_quiet s _ h hl, fire_step]

/-! ## `Step()` (R8, R167) -/

theorem cycle_of_faulted (h : s.run = .faulted) : cycle s = .next s := by simp [cycle, h]

theorem cycle_of_awaitingKey (h : s.run = .awaitingKey) : cycle s = .next s := by simp [cycle, h]

theorem cycle_of_fetched (h : s.run = .running) (hp : s.PC.toNat ≤ 4094) :
    cycle s = execDecoded (decode (fetchWord s)) s := by
  simp [cycle, h, (canFetch_iff s).2 hp]

theorem cycle_of_past (h : s.run = .running) (hp : s.PC.toNat > 4094) :
    cycle s = .next (s.raise (fetchFault s)) := by
  have : canFetch s = false := by
    rw [← Bool.not_eq_true, canFetch_iff]
    omega
  simp [cycle, h, this]

/-- What a running core's `Step()` can do: fault at the fetch, report an unknown word, or run an instruction. -/
theorem cycle_cases {t : State} (h : s.run = .running) (ht : cycle s = .next t) :
    (s.PC.toNat > 4094 ∧ t = s.raise (fetchFault s)) ∨
    (s.PC.toNat ≤ 4094 ∧ ∃ w, decode (fetchWord s) = .unknown w ∧ t = s.warnUnknown w) ∨
    (s.PC.toNat ≤ 4094 ∧ ∃ i, decode (fetchWord s) = .instr i ∧ exec i s = .next t) := by
  by_cases hp : s.PC.toNat ≤ 4094
  · rw [cycle_of_fetched s h hp] at ht
    cases hd : decode (fetchWord s) with
    | unknown w => rw [hd] at ht; exact .inr (.inl ⟨hp, w, rfl, (Host.Outcome.next.inj ht).symm⟩)
    | instr i => rw [hd] at ht; exact .inr (.inr ⟨hp, i, rfl, ht⟩)
  · rw [cycle_of_past s h (by omega)] at ht
    exact .inl ⟨by omega, (Host.Outcome.next.inj ht).symm⟩

/-- The high byte of the fetched word is the byte at PC (R42). -/
@[simp] theorem highByte_fetchWord : highByte (fetchWord s) = s.byte s.PC.toNat := by
  unfold fetchWord highByte wordOfBytes
  exact BitVec.extractLsb'_append_eq_left

/-- The low byte of the fetched word is the byte after it (R42). -/
@[simp] theorem lowByte_fetchWord : lowByte (fetchWord s) = s.byte (s.PC.toNat + 1) := by
  unfold fetchWord lowByte wordOfBytes
  exact BitVec.extractLsb'_append_eq_right

/-- A word stored by `placeWord` is the word the next step fetches. -/
theorem fetchWord_placeWord (w : Word) : fetchWord (placeWord s w) = w := by
  unfold placeWord fetchWord
  simp only [State.writeByte_PC, State.byte_writeByte]
  rw [if_neg (by omega), if_pos trivial, if_pos trivial, wordOfBytes_high_low]

end Sys2Proof.Machine
end

