-- ==== Sys2Proof/Laws/Executions.lean ====
section
/-! SUPPORT. No transition reads or writes the record of who moves next, so that it can be exchanged under any of them (spec R180). -/

namespace Sys2Proof.Machine

variable (s : State) (l : List Transition) (w : LaterMoves)

theorem guarded_moves {f : FaultRecord} {e t : State} (h : guarded f s e = .next t) :
    guarded f { s with schedule := l, later := w } { e with schedule := l, later := w } =
      .next { t with schedule := l, later := w } := by
  cases f <;> (cases h; rfl)

theorem storeRegs_moves (x : Reg) :
    storeRegs { s with schedule := l, later := w } x = { storeRegs s x with schedule := l, later := w } := by
  unfold storeRegs
  generalize regsUpTo x = regs
  induction regs generalizing s with
  | nil => rfl
  | cons i regs ih => rw [List.foldl_cons, List.foldl_cons]; exact ih (s.writeByte _ _)

theorem loadRegs_moves (x : Reg) :
    loadRegs { s with schedule := l, later := w } x = { loadRegs s x with schedule := l, later := w } := by
  unfold loadRegs
  generalize regsUpTo x = regs
  induction regs generalizing s with
  | nil => rfl
  | cons i regs ih => rw [List.foldl_cons, List.foldl_cons]; exact ih (s.setReg _ _)

theorem push_moves (v : Word) :
    ({ s with schedule := l, later := w } : State).push v = { s.push v with schedule := l, later := w } := by
  unfold State.push
  split <;> rfl

/-- An instruction does the same under every record of moves, and keeps it. -/
theorem exec_moves {i : Instr} {t : State} (h : exec i s = .next t) :
    exec i { s with schedule := l, later := w } = .next { t with schedule := l, later := w } := by
  cases i
  case call nnn =>
    refine Eq.trans ?_ (guarded_moves s l w h)
    show guarded (callCheck nnn s) _ (State.jump (State.push _ _) _) = _
    rw [push_moves]; rfl
  case stRegs x =>
    refine Eq.trans ?_ (guarded_moves s l w h)
    show guarded (spanCheck (x.val + 1) s) _ (State.next (storeRegs _ _)) = _
    rw [storeRegs_moves]; rfl
  case ldRegs x =>
    refine Eq.trans ?_ (guarded_moves s l w h)
    show guarded (spanCheck (x.val + 1) s) _ (State.next (loadRegs _ _)) = _
    rw [loadRegs_moves]; rfl
  case ret => exact guarded_moves s l w h
  case drw => exact guarded_moves s l w h
  case bcd => exact guarded_moves s l w h
  case skp x =>
    refine Eq.trans ?_ (guarded_moves s l w h)
    show guarded (keyCheck x s) _ (State.skip _ (s.key (keyNumber s x))) = _
    rw [State.skip_eq, State.skip_eq]
  case sknp x =>
    refine Eq.trans ?_ (guarded_moves s l w h)
    show guarded (keyCheck x s) _ (State.skip _ (!s.key (keyNumber s x))) = _
    rw [State.skip_eq, State.skip_eq]
  case seImm => cases h; simp only [exec, execSeImm, State.skip_eq]; rfl
  case sneImm => cases h; simp only [exec, execSneImm, State.skip_eq]; rfl
  case seReg => cases h; simp only [exec, execSeReg, State.skip_eq]; rfl
  case sneReg => cases h; simp only [exec, execSneReg, State.skip_eq]; rfl
  all_goals (cases h; rfl)

theorem cycle_moves {t : State} (h : cycle s = .next t) :
    cycle { s with schedule := l, later := w } = .next { t with schedule := l, later := w } := by
  rcases (show s.run = .awaitingKey ∨ s.run = .faulted ∨ s.run = .running by cases s.run <;> simp) with hr | hr | hr
  · rw [cycle_of_awaitingKey s hr] at h; cases h
    exact cycle_of_awaitingKey { s with schedule := l, later := w } hr
  · rw [cycle_of_faulted s hr] at h; cases h
    exact cycle_of_faulted { s with schedule := l, later := w } hr
  · rcases cycle_cases s hr h with ⟨hp, e⟩ | ⟨hp, v, hd, e⟩ | ⟨hp, i, hd, he⟩
    · rw [e]; exact cycle_of_past { s with schedule := l, later := w } hr hp
    · rw [e, cycle_of_fetched { s with schedule := l, later := w } hr hp,
        show decode (fetchWord { s with schedule := l, later := w }) = .unknown v from hd]
      rfl
    · rw [cycle_of_fetched { s with schedule := l, later := w } hr hp,
        show decode (fetchWord { s with schedule := l, later := w }) = .instr i from hd]
      exact exec_moves s l w he

/-- Every transition does the same under every record of moves, and keeps it. -/
theorem fire_moves {t : Transition} {u : State} (h : fire t s = .next u) :
    fire t { s with schedule := l, later := w } = .next { u with schedule := l, later := w } := by
  cases t with
  | step => exact cycle_moves s l w h
  | tick60 => cases h; rfl
  | keyDown k =>
    cases h
    show Host.Outcome.next (keyDown k _) = _
    unfold keyDown
    by_cases hr : s.run = .awaitingKey
    · simp only [hr, if_true]; rfl
    · simp only [hr, if_false]; rfl
  | keyUp k => cases h; rfl
  | deliver =>
    cases h
    show Host.Outcome.next (deliver _) = _
    unfold deliver
    by_cases hr : s.redrawPending = true <;> simp [hr]
  | reset => cases h; rfl
  | loadProgram bytes =>
    simp only [fire, loadProgram] at h ⊢
    split at h
    · cases h
    · next hb => cases h; rw [if_neg hb]

end Sys2Proof.Machine
end

