-- ==== Sys2Proof/Laws/PerInstr.lean ====
section
/-! SUPPORT. Statements made instruction by instruction: the word of an instruction selects the instruction's row of the opcode table. -/

namespace Sys2Proof.Laws.Row

/-- The word of the instruction has the fixed bits of its row of the table (spec R65). -/
def Statement (i : Instr) : Prop := (rowOf i).selects (encode i) = true

/-- A word that the row's mask takes to the row's pattern selects the row. -/
theorem selects_of_mask {w p q m : Word} (h : w &&& m = p) (e : p = q := by rfl) :
    OpcodeRow.selects ⟨q, m⟩ w = true := by
  rw [OpcodeRow.selects, beq_iff_eq, ← e]
  exact h

theorem cls : Statement .cls := rfl

theorem ret : Statement .ret := rfl

theorem jp (nnn : Addr12) : Statement (.jp nnn) := selects_of_mask (formatNNN_and_mask ..)

theorem call (nnn : Addr12) : Statement (.call nnn) := selects_of_mask (formatNNN_and_mask ..)

theorem seImm (x : Reg) (kk : Byte) : Statement (.seImm x kk) := selects_of_mask (formatXKK_and_op ..)

theorem sneImm (x : Reg) (kk : Byte) : Statement (.sneImm x kk) := selects_of_mask (formatXKK_and_op ..)

theorem seReg (x : Reg) (y : Reg) : Statement (.seReg x y) := selects_of_mask (formatXYN_and_mask ..)

theorem ldImm (x : Reg) (kk : Byte) : Statement (.ldImm x kk) := selects_of_mask (formatXKK_and_op ..)

theorem addImm (x : Reg) (kk : Byte) : Statement (.addImm x kk) := selects_of_mask (formatXKK_and_op ..)

theorem ldReg (x : Reg) (y : Reg) : Statement (.ldReg x y) := selects_of_mask (formatXYN_and_mask ..)

theorem orReg (x : Reg) (y : Reg) : Statement (.orReg x y) := selects_of_mask (formatXYN_and_mask ..)

theorem andReg (x : Reg) (y : Reg) : Statement (.andReg x y) := selects_of_mask (formatXYN_and_mask ..)

theorem xorReg (x : Reg) (y : Reg) : Statement (.xorReg x y) := selects_of_mask (formatXYN_and_mask ..)

theorem addReg (x : Reg) (y : Reg) : Statement (.addReg x y) := selects_of_mask (formatXYN_and_mask ..)

theorem sub (x : Reg) (y : Reg) : Statement (.sub x y) := selects_of_mask (formatXYN_and_mask ..)

theorem shr (x : Reg) (y : Reg) : Statement (.shr x y) := selects_of_mask (formatXYN_and_mask ..)

theorem subn (x : Reg) (y : Reg) : Statement (.subn x y) := selects_of_mask (formatXYN_and_mask ..)

theorem shl (x : Reg) (y : Reg) : Statement (.shl x y) := selects_of_mask (formatXYN_and_mask ..)

theorem sneReg (x : Reg) (y : Reg) : Statement (.sneReg x y) := selects_of_mask (formatXYN_and_mask ..)

theorem ldI (nnn : Addr12) : Statement (.ldI nnn) := selects_of_mask (formatNNN_and_mask ..)

theorem jpV0 (nnn : Addr12) : Statement (.jpV0 nnn) := selects_of_mask (formatNNN_and_mask ..)

theorem rnd (x : Reg) (kk : Byte) : Statement (.rnd x kk) := selects_of_mask (formatXKK_and_op ..)

theorem drw (x : Reg) (y : Reg) (n : Nibble) : Statement (.drw x y n) := selects_of_mask (formatXYN_and_op ..)

theorem skp (x : Reg) : Statement (.skp x) := selects_of_mask (formatXKK_and_mask ..)

theorem sknp (x : Reg) : Statement (.sknp x) := selects_of_mask (formatXKK_and_mask ..)

theorem ldFromDT (x : Reg) : Statement (.ldFromDT x) := selects_of_mask (formatXKK_and_mask ..)

theorem ldKey (x : Reg) : Statement (.ldKey x) := selects_of_mask (formatXKK_and_mask ..)

theorem ldDT (x : Reg) : Statement (.ldDT x) := selects_of_mask (formatXKK_and_mask ..)

theorem ldST (x : Reg) : Statement (.ldST x) := selects_of_mask (formatXKK_and_mask ..)

theorem addI (x : Reg) : Statement (.addI x) := selects_of_mask (formatXKK_and_mask ..)

theorem ldFont (x : Reg) : Statement (.ldFont x) := selects_of_mask (formatXKK_and_mask ..)

theorem bcd (x : Reg) : Statement (.bcd x) := selects_of_mask (formatXKK_and_mask ..)

theorem stRegs (x : Reg) : Statement (.stRegs x) := selects_of_mask (formatXKK_and_mask ..)

theorem ldRegs (x : Reg) : Statement (.ldRegs x) := selects_of_mask (formatXKK_and_mask ..)

end Sys2Proof.Laws.Row
end

