-- ==== Sys2Proof/Tests/Slice0.lean ====
section
/-! SUPPORT. The model's own tests: ill-formed terms, decoding of written-out words, one step of each instruction with the values of
spec/95_test_vectors.md (the vector is named at each test), and a witness for the hypotheses of every statement that has some. -/

namespace Sys2Proof.Tests

open Sys2Proof Sys2Proof.Machine

/-! ## Helpers -/

/-- The reset state with some registers set. -/
def withRegs (l : List (Reg × Byte)) : State := l.foldl (fun s p => s.setReg p.1 p.2) State.reset

/-- The reset state with some registers, `I` and some bytes of memory set. -/
def withMem (l : List (Reg × Byte)) (i : Word) (a : Nat) (bytes : List Byte) : State :=
  { withRegs l with I := i, mem := Memory.writeList defaultParams [] a bytes }

/-- The next state, where there is one. -/
def out (r : Result) : Option State :=
  match r with
  | .next s => some s
  | .fault _ => none
  | .refused _ => none

/-- One step on a word placed at PC. -/
def run1 (w : Nat) (s : State) : Option State := out (step (s.withFetchWord 16 w))

/-- What a test of a register instruction looks at. -/
def seen (x : Reg) (s : State) : Byte × Byte × Word := (s.V[x], s.V[(15 : Reg)], s.PC)

/-! ## Ill-formed terms are refused (R61, R63, R69, R166) -/

theorem test_wf_register_16 : (RawOperand.reg 16).wellFormed = false ∧ (RawOperand.reg 15).wellFormed = true := by decide
theorem test_wf_immediate_256 : (RawOperand.imm8 256).wellFormed = false ∧ (RawOperand.imm8 255).wellFormed = true := by decide
theorem test_wf_address_4096 : (RawOperand.addr 4096).wellFormed = false ∧ (RawOperand.addr 4095).wellFormed = true := by decide
theorem test_wf_rows_16 : (RawOperand.rows 16).wellFormed = false ∧ (RawOperand.rows 15).wellFormed = true := by decide
theorem test_wf_instr : (Instr.drw 15 15 15#4).wellFormed = true := by decide
theorem test_wf_image : imageWellFormed (List.replicate 3585 0) = false ∧ imageWellFormed (List.replicate 3584 0) = true := by
  simp only [imageWellFormed, List.length_replicate]
  decide

/-! ## Decoding: the patterns of R65, every constructor -/

theorem test_decode_groups_0_to_2 :
    decode 0b0000000011100000#16 = .instr .cls ∧
    decode 0b0000000011101110#16 = .instr .ret ∧
    decode 0b0001101010111101#16 = .instr (.jp 0xABD#12) ∧
    decode 0b0010101010111100#16 = .instr (.call 0xABC#12) := by decide
theorem test_decode_skips :
    decode 0b0011110001111111#16 = .instr (.seImm 0xC 0x7F#8) ∧
    decode 0b0100000100000101#16 = .instr (.sneImm 1 0x05#8) ∧
    decode 0b0101000100100000#16 = .instr (.seReg 1 2) ∧
    decode 0b1001000100100000#16 = .instr (.sneReg 1 2) ∧
    decode 0b1110010010011110#16 = .instr (.skp 4) ∧
    decode 0b1110111110100001#16 = .instr (.sknp 0xF) := by decide
theorem test_decode_immediates :
    decode 0b0110111110101011#16 = .instr (.ldImm 0xF 0xAB#8) ∧
    decode 0b0111001100000001#16 = .instr (.addImm 3 0x01#8) ∧
    decode 0b1010111111111111#16 = .instr (.ldI 0xFFF#12) ∧
    decode 0b1011001000000100#16 = .instr (.jpV0 0x204#12) ∧
    decode 0b1100000100001111#16 = .instr (.rnd 1 0x0F#8) ∧
    decode 0b1101000100100101#16 = .instr (.drw 1 2 5#4) := by decide
theorem test_decode_group_8 :
    decode 0b1000101010110000#16 = .instr (.ldReg 0xA 0xB) ∧
    decode 0b1000101010110001#16 = .instr (.orReg 0xA 0xB) ∧
    decode 0b1000101010110010#16 = .instr (.andReg 0xA 0xB) ∧
    decode 0b1000101010110011#16 = .instr (.xorReg 0xA 0xB) ∧
    decode 0b1000101010110100#16 = .instr (.addReg 0xA 0xB) ∧
    decode 0b1000101010110101#16 = .instr (.sub 0xA 0xB) ∧
    decode 0b1000101010110110#16 = .instr (.shr 0xA 0xB) ∧
    decode 0b1000101010110111#16 = .instr (.subn 0xA 0xB) ∧
    decode 0b1000101010111110#16 = .instr (.shl 0xA 0xB) := by decide
theorem test_decode_group_F :
    decode 0b1111001100000111#16 = .instr (.ldFromDT 3) ∧
    decode 0b1111001100001010#16 = .instr (.ldKey 3) ∧
    decode 0b1111001100010101#16 = .instr (.ldDT 3) ∧
    decode 0b1111001100011000#16 = .instr (.ldST 3) ∧
    decode 0b1111001100011110#16 = .instr (.addI 3) ∧
    decode 0b1111001100101001#16 = .instr (.ldFont 3) ∧
    decode 0b1111001100110011#16 = .instr (.bcd 3) ∧
    decode 0b1111001101010101#16 = .instr (.stRegs 3) ∧
    decode 0b1111001101100101#16 = .instr (.ldRegs 3) := by decide
/-- TE3, TE5, TE6, TE7, TE8, TE10. -/
theorem test_decode_unknown :
    [0x0000#16, 0x00E1#16, 0x01E0#16, 0x0FEE#16, 0x0123#16, 0x8AB8#16, 0x8ABF#16, 0x5121#16, 0x912F#16, 0xE09F#16,
      0xE000#16, 0xF000#16, 0xF075#16, 0xF0FF#16].all (fun w => decide (decode w = .unknown w)) = true := by decide
/-- TE13: high byte first. -/
theorem test_decode_bytes : decodeBytes [0x8A#8, 0xB4#8, 0x12#8] = .ok (.addReg 0xA 0xB, [0x12#8]) := by
  simp only [decodeBytes, show wordOfBytes 0x8A#8 0xB4#8 = 0x8AB4#16 from by decide,
    show decode 0x8AB4#16 = .instr (.addReg 0xA 0xB) from by decide]
theorem test_decode_truncated : decodeBytes [0x8A#8] = .error (.truncated 1) := by rfl
theorem test_decode_table_word : decodeTableWord 16 0x8AB4 = some (.addReg 0xA 0xB) ∧ decodeTableWord 16 0x8AB8 = none := by decide
/-- R70: the fields of 0x8AB4. -/
theorem test_encode_word : encode (.addReg 0xA 0xB) = 0x8AB4#16 ∧ encodeBytes (.call 0xABC#12) = [0x2A#8, 0xBC#8] := by decide

/-! ## Load, arithmetic, logic, shift, random (TA) -/

theorem test_TA1_ldImm : (run1 0x6FAB State.reset).map (seen 15) = some (0xAB, 0xAB, 0x202) := by decide
theorem test_TA2_addImm : (run1 0x7301 (withRegs [(3, 0xFF), (15, 0x55)])).map (seen 3) = some (0, 0x55, 0x202) := by decide
theorem test_TA4_ldReg : (run1 0x8010 (withRegs [(1, 7)])).map (seen 0) = some (7, 0, 0x202) := by decide
theorem test_TA5_or : (run1 0x8011 (withRegs [(0, 0xF0), (1, 0x0F), (15, 1)])).map (seen 0) = some (0xFF, 1, 0x202) := by decide
theorem test_TA5b_and : (run1 0x8012 (withRegs [(0, 0xF0), (1, 0x3C)])).map (seen 0) = some (0x30, 0, 0x202) := by decide
theorem test_TA6_xor : (run1 0x8223 (withRegs [(2, 0x5A)])).map (seen 2) = some (0, 0, 0x202) := by decide
theorem test_TA8_add_sum_255 : (run1 0x8014 (withRegs [(0, 0x80), (1, 0x7F)])).map (seen 0) = some (0xFF, 0, 0x202) := by decide
theorem test_TA11_add_into_VF : (run1 0x8F14 (withRegs [(15, 0xF0), (1, 0x20)])).map (seen 15) = some (0x10, 0x10, 0x202) := by decide
theorem test_TA12_add_from_VF : (run1 0x80F4 (withRegs [(0, 1), (15, 0xFF)])).map (seen 0) = some (0, 1, 0x202) := by decide
theorem test_TA13_sub_equal : (run1 0x8015 (withRegs [(0, 5), (1, 5)])).map (seen 0) = some (0, 0, 0x202) := by decide
theorem test_TA15_sub_borrow : (run1 0x8015 (withRegs [(0, 3), (1, 5)])).map (seen 0) = some (0xFE, 0, 0x202) := by decide
theorem test_TA22_shr : (run1 0x8276 (withRegs [(2, 5), (7, 0xF0)])).map (seen 2) = some (2, 1, 0x202) := by decide
theorem test_TA24_shr_VF : (run1 0x8F06 (withRegs [(15, 2)])).map (seen 15) = some (1, 1, 0x202) := by decide
theorem test_TA25_subn : (run1 0x8017 (withRegs [(0, 2), (1, 0x0A)])).map (seen 0) = some (8, 1, 0x202) := by decide
theorem test_TA26_subn_borrow : (run1 0x8017 (withRegs [(0, 0x0A), (1, 2)])).map (seen 0) = some (0xF8, 0, 0x202) := by decide
theorem test_TA28_shl : (run1 0x800E (withRegs [(0, 0x80)])).map (seen 0) = some (0, 1, 0x202) := by decide
theorem test_TA31_shl_VF : (run1 0x8F0E (withRegs [(15, 0x81)])).map (seen 15) = some (2, 2, 0x202) := by decide
/-- TA32: for the draw 0xB7. -/
theorem test_TA32_rnd : seen 1 (randomEffect 1 0x0F 0xB7 State.reset) = (0x07, 0, 0x202) := by decide
/-- TA33: masked by 0x00, for the free draw. -/
theorem test_TA33_rnd_zero : (exec (.rnd 1 0x00) State.reset) =
    .next { State.reset with V := State.reset.V.set 1 0, PC := 0x202, draws := 1 } := by
  simp [exec, execRnd, randomEffect, State.setReg, State.next, State.advance, State.reset]

/-! ## Control flow (TC) -/

theorem test_TC1_jp : (run1 0x1ABD State.reset).map (·.PC) = some 0xABD := by decide
theorem test_TC2_call : (run1 0x2ABC { State.reset with PC := 0x3FE, sp := 3 }).map (fun s => (s.stack[3], s.sp, s.PC)) =
    some (0x400, 4, 0xABC) := by decide
theorem test_TC3_ret : (run1 0x00EE { State.reset with PC := 0x400, sp := 2, stack := State.reset.stack.set 1 0x333 }).map
    (fun s => (s.stack[1], s.sp, s.PC)) = some (0x333, 1, 0x333) := by decide
theorem test_TC4_jpV0 : (run1 0xBFFF (withRegs [(0, 0xFF)])).map (·.PC) = some 0x10FE := by decide
theorem test_TC7_seImm : (run1 0x3000 { withRegs [(0, 2)] with PC := 0x206 }).map (·.PC) = some 0x208 := by decide
theorem test_TC15_seImm_past_end : (run1 0x3000 { State.reset with PC := 0xFFE }).map (fun s => (s.PC, s.run)) =
    some (0x1002, .running) := by decide
theorem test_TC8_sneImm : (run1 0x4106 { withRegs [(1, 5)] with PC := 0x300 }).map (·.PC) = some 0x304 := by decide
theorem test_TC11_seReg : (run1 0x5120 { withRegs [(1, 9), (2, 8)] with PC := 0x300 }).map (·.PC) = some 0x302 := by decide
theorem test_TC11_sneReg : (run1 0x9120 { withRegs [(1, 9), (2, 8)] with PC := 0x300 }).map (·.PC) = some 0x304 := by decide
theorem test_TC12_skp : (run1 0xE49E ((withRegs [(4, 0x0A)]).setKey 0xA true)).map (·.PC) = some 0x204 := by decide
theorem test_TC13_sknp : (run1 0xE4A1 ((withRegs [(4, 0x0A)]).setKey 0xA true)).map (·.PC) = some 0x202 := by decide
theorem test_TF1_call_overflow : (run1 0x2200 { State.reset with sp := 16 }).map (fun s => (s.fault, s.run, s.sp, s.PC)) =
    some (.stackOverflow 0x200 0x200, .faulted, 16, 0x200) := by decide
theorem test_TF2_ret_underflow : (run1 0x00EE State.reset).map (fun s => (s.fault, s.run, s.sp, s.PC)) =
    some (.stackUnderflow 0x200, .faulted, 0, 0x200) := by decide
theorem test_TF5_sknp_key_16 : (run1 0xE4A1 (withRegs [(4, 0x10)])).map (fun s => (s.fault, s.run, s.PC)) =
    some (.keyIndexOutOfRange 0x200 0x10, .faulted, 0x200) := by decide

/-! ## Index register and memory (TM) -/

theorem test_TM1_ldI : (run1 0xAFFF State.reset).map (·.I) = some 0xFFF := by decide
theorem test_TM3_addI_wraps : (run1 0xF11E { withRegs [(1, 1)] with I := 0xFFFF }).map (fun s => (s.I, s.V[15])) = some (0, 0) := by decide
theorem test_TM6_ldFont : (run1 0xF029 (withRegs [(0, 0xFF)])).map (·.I) = some 0x4FB := by decide
theorem test_TM9_bcd : (run1 0xF033 (withMem [(0, 156)] 0x300 0 [])).map (fun s => (s.byte 0x300, s.byte 0x301, s.byte 0x302)) =
    some (1, 5, 6) := by decide
theorem test_TM11_bcd_past_end : (run1 0xF033 (withMem [(0, 199)] 0xFFE 0xFFE [0x55])).map (fun s => (s.fault, s.byte 0xFFE, s.PC)) =
    some (.addressOutOfRange 0x200 0x1000, 0x55, 0x200) := by decide
theorem test_TM12_stRegs : (run1 0xF255 (withMem [(0, 0x10), (1, 0x11), (2, 0x12)] 0xFFD 0xFFC [0x55])).map
    (fun s => (s.byte 0xFFC, s.byte 0xFFD, s.byte 0xFFE, s.byte 0xFFF, s.I)) = some (0x55, 0x10, 0x11, 0x12, 0xFFD) := by decide
theorem test_TM13_stRegs_past_end : (run1 0xFF55 (withMem [(0, 0x10)] 0xFF1 0xFF1 [0x55])).map (fun s => (s.fault, s.byte 0xFF1)) =
    some (.addressOutOfRange 0x200 0x1000, 0x55) := by decide
theorem test_TM17_ldRegs : (run1 0xF165 (withMem [(2, 9)] 0x400 0x400 [0xA0, 0xA1, 0xA2])).map
    (fun s => (s.V[0], s.V[1], s.V[2], s.I)) = some (0xA0, 0xA1, 9, 0x400) := by decide
theorem test_TM16_ldRegs_past_end : (run1 0xF165 (withMem [] 0xFFF 0xFFF [0x77])).map (fun s => (s.fault, s.V[0])) =
    some (.addressOutOfRange 0x200 0x1000, 0) := by decide

/-! ## Display (TD) -/

theorem test_TD12_cls : (run1 0x00E0 { withRegs [(15, 1)] with FB := blankFramebuffer.set 5 (Vector.replicate 64 true) }).map
    (fun s => (s.cell 3 5, s.V[15], s.redrawPending)) = some (false, 1, true) := by decide
theorem test_TD8_drw_wraps : (run1 0xD012 (withMem [(0, 62), (1, 31)] 0x300 0x300 [0xC0, 0xC0])).map
    (fun s => (s.cell 62 31, s.cell 63 31, s.cell 62 0, s.cell 63 0, s.cell 0 31, s.V[15])) =
    some (true, true, true, true, false, 0) := by decide
theorem test_TD4_drw_collides : (run1 0xD011 { withMem [] 0x301 0x301 [0x90] with
      FB := blankFramebuffer.set 0 ((Vector.replicate 64 false).set 0 true) }).map
    (fun s => (s.cell 0 0, s.cell 3 0, s.V[15])) = some (false, true, 1) := by decide

/-! ## Timers, key-wait and the other transitions (TK, TF, TR) -/

theorem test_TK1_ldDT : (run1 0xF015 (withRegs [(0, 60)])).map (·.DT) = some 60 := by decide
theorem test_TK2_ldST : (run1 0xF518 (withRegs [(5, 4)])).map (fun s => (s.ST, tone s)) = some (4, true) := by decide
theorem test_TK5_ldFromDT : (run1 0xF307 { State.reset with DT := 0x2A }).map (fun s => (s.V[3], s.DT)) = some (0x2A, 0x2A) := by decide
theorem test_TK6_ldKey : (run1 0xF30A State.reset).map (fun s => (s.run, s.waitReg, s.PC)) = some (.awaitingKey, 3, 0x200) := by decide
theorem test_TK6_keyDown : (out (fire (.keyDown 0xA) { State.reset with run := .awaitingKey, waitReg := 3 })).map
    (fun s => (s.V[3], s.keys[0xA], s.run, s.PC)) = some (0x0A, true, .running, 0x202) := by decide
theorem test_TK3_tick60 : (out (fire .tick60 { State.reset with DT := 1, ST := 0 })).map (fun s => (s.DT, s.ST)) = some (0, 0) := by decide
theorem test_TK10_deliver : (out (fire .deliver { State.reset with redrawPending := true })).map (·.redrawPending) = some false := by decide
theorem test_TF3_fetch_4095 : (out (step { State.reset with PC := 0xFFF })).map (fun s => (s.fault, s.PC)) =
    some (.addressOutOfRange 0xFFF 0x1000, 0xFFF) := by decide
theorem test_TF7_unknown : (run1 0xF31F { State.reset with PC := 0x204, warn := true, warnWord := 0x5011, warnPC := 0x202 }).map
    (fun s => (s.warn, s.warnWord, s.warnPC, s.PC)) = some (true, 0xF31F, 0x204, 0x206) := by decide
theorem test_TF9_reset : (out (fire .reset { State.reset with run := .faulted, fault := .stackUnderflow 0x300, PC := 0x300, sp := 16 })).map
    (fun s => (s.run, s.fault, s.sp, s.PC)) = some (.running, .none, 0, 0x200) := by decide
theorem test_TR4_load : (out (fire (.loadProgram [0x12, 0x00, 0xAA]) (withMem [] 0 0x203 [0x55]))).map
    (fun s => (s.byte 0x200, s.byte 0x201, s.byte 0x202, s.byte 0x203)) = some (0x12, 0, 0xAA, 0x55) := by decide
theorem test_TR5_glyph_F : (List.range 5).map (fun j => State.reset.byte (0x4B + j)) = [0xF0, 0x80, 0xF0, 0x80, 0x80] := by decide

/-! ## Witnesses: each names the statement whose hypotheses it meets -/

/-- A store of a byte of the font that puts the font's own byte back is not listed. -/
theorem test_memory_canonical : Memory.write defaultParams [(0, 1)] 0 0xF0 = [] := by decide

theorem witness_EncodeDecodeRoundTrip : decode 0x8AB4#16 = .instr (.addReg 0xA 0xB) := by decide

theorem witness_DecodeAgreesWithOpcodeTable :
    decode 0x8AB8#16 = .unknown 0x8AB8#16 ∧ (∀ r ∈ opcodeTable, r.selects 0x8AB8#16 = false) ∧
    decode 0xF265#16 = .instr (.ldRegs 2) ∧ rowOf (.ldRegs 2) ∈ opcodeTable ∧ (rowOf (.ldRegs 2)).selects 0xF265#16 = true := by
  decide

/-- `1200` at 4094, the last legal PC (TF4), under a record of moves. -/
def atLastPC (schedule : List Transition) (later : LaterMoves) : State :=
  { State.reset with
    PC := 0xFFE, mem := Memory.writeList defaultParams [] 0xFFE [0x12, 0x00], schedule := schedule, later := later }

/-- No other agent to move; a `Step()` at the head of the schedule; one in the repeating period. -/
theorem witness_StepRunsDecodedInstruction :
    (atLastPC [] (.repeating [])).run = .running ∧ (atLastPC [] (.repeating [])).PC.toNat ≤ 4094 ∧
    decodeBytes [(atLastPC [] (.repeating [])).byte (atLastPC [] (.repeating [])).PC.toNat,
      (atLastPC [] (.repeating [])).byte ((atLastPC [] (.repeating [])).PC.toNat + 1)] = .ok (.jp 0x200#12, []) ∧
    (atLastPC [] (.repeating [])).schedule = [] ∧ (atLastPC [] (.repeating [])).later = .repeating [] ∧
    (atLastPC [.step, .tick60] (.free 3)).schedule = .step :: [.tick60] ∧
    (nextMove (atLastPC [] (.repeating [.step, .tick60]))).1 = .step := by
  refine ⟨rfl, by decide, rfl, rfl, rfl, rfl, rfl⟩

/-- The word 0x0000 at 0x200 (TF6). -/
def atZeroWord : State := State.reset.withFetchWord 16 0x0000

theorem witness_UnknownWordWarnsAndAdvances :
    atZeroWord.run = .running ∧ atZeroWord.PC.toNat ≤ 4094 ∧
    decodeBytes [atZeroWord.byte atZeroWord.PC.toNat, atZeroWord.byte (atZeroWord.PC.toNat + 1)] =
      .error (.unknownInstruction 0x0000#16) := by
  refine ⟨rfl, by decide, rfl⟩

theorem witness_FetchPastMemoryFaults :
    ({ State.reset with PC := 0xFFF } : State).run = .running ∧ ({ State.reset with PC := 0xFFF } : State).PC.toNat > 4094 := by
  decide

/-- A core that waits for a key in V3. -/
def waiting : State := { State.reset with run := .awaitingKey, waitReg := 3 }

theorem witness_WaitingCoreHolds :
    waiting.run = .awaitingKey ∧
    (∃ u, fire (.keyDown 0xA) waiting = .next u ∧ u.run ≠ .awaitingKey) ∧
    (∃ u, fire .reset waiting = .next u ∧ u.run ≠ .awaitingKey) ∧
    State.reset.run = .running ∧
    (∃ u, exec (.ldKey 3) State.reset = .next u ∧ u.run = .awaitingKey) ∧
    (∃ u, fire .step (State.reset.withFetchWord 16 0xF30A) = .next u ∧ u.run = .awaitingKey) := by
  refine ⟨rfl, ⟨_, rfl, by decide⟩, ⟨_, rfl, by decide⟩, rfl, ⟨_, rfl, rfl⟩, ⟨_, rfl, rfl⟩⟩

/-- A core that has faulted on a return. -/
def faulted : State := { State.reset with run := .faulted, fault := .stackUnderflow 0x200 }

theorem witness_FaultedCoreStaysFaulted :
    faulted.run = .faulted ∧ (∃ u, fire .tick60 faulted = .next u) ∧
    ∃ u, fire (.loadProgram [1]) faulted = .next u := by
  refine ⟨rfl, ⟨_, rfl⟩, ⟨_, rfl⟩⟩

/-- A fault, a warning, a directive and a hold, each of a running core. -/
theorem witness_OutcomesAreRecorded :
    (∃ t, fire .step (State.reset.withFetchWord 16 0x00EE) = .next t ∧
      stepOutcome (State.reset.withFetchWord 16 0x00EE) = .faulted (.stackUnderflow 0x200)) ∧
    (∃ t, fire .step (State.reset.withFetchWord 16 0x0000) = .next t ∧
      stepOutcome (State.reset.withFetchWord 16 0x0000) = .warning 0x0000 0x200) ∧
    (∃ t, fire .step (State.reset.withFetchWord 16 0x6FAB) = .next t ∧
      stepOutcome (State.reset.withFetchWord 16 0x6FAB) = .ok .plus2) ∧
    (∃ t, fire .step (State.reset.withFetchWord 16 0xF30A) = .next t ∧
      stepOutcome (State.reset.withFetchWord 16 0xF30A) = .hold) ∧
    (State.reset.withFetchWord 16 0x00EE).run = .running := by
  refine ⟨⟨_, rfl, by decide⟩, ⟨_, rfl, by decide⟩, ⟨_, rfl, by decide⟩, ⟨_, rfl, by decide⟩, rfl⟩

/-- The idle loop `1200` at 0x200. -/
theorem witness_IdleLoopStands : (State.reset.withFetchWord 16 0x1200).idle :=
  ⟨by decide, by decide, 0x200#12, by decide, by decide⟩

/-- An image one byte longer than the largest. -/
theorem witness_OnlyOversizedLoadStops :
    step { State.reset with schedule := [.loadProgram (List.replicate 3585 0)] } = .fault (.imageTooLarge 3585) := by
  have h : (List.replicate 3585 (0 : Byte)).length > Config.progMax := by rw [List.length_replicate]; decide
  have stops : ∀ bytes : List Byte, bytes.length > Config.progMax →
      step { State.reset with schedule := [.loadProgram bytes] } = .fault (.imageTooLarge bytes.length) :=
    fun bytes hb => if_pos hb
  rw [stops _ h, List.length_replicate]

theorem witness_LaunchStateInEitherOrder : (List.replicate 3584 (0 : Byte)).length ≤ 3584 := by
  rw [List.length_replicate]

theorem witness_LoadProgramCopiesImage :
    (List.replicate 3584 (0 : Byte)).length ≤ 3584 ∧ (List.replicate 3585 (0 : Byte)).length > 3584 := by
  simp only [List.length_replicate]; decide

theorem witness_KeyDownResolvesWait : waiting.run = .awaitingKey ∧ faulted.run ≠ .awaitingKey ∧ State.reset.run ≠ .awaitingKey := by
  decide

theorem witness_DeliverClearsRedraw :
    ({ State.reset with redrawPending := true } : State).redrawPending = true ∧ State.reset.redrawPending = false := by decide

/-- An execution in which the core stands at a jump to itself and steps and ticks alternate: both fairness assumptions hold. -/
def idling : State := State.reset.withFetchWord 16 0x1200

/-- Step, tick, step, tick, without end. -/
def alternating (n : Nat) : Transition := if n % 2 = 0 then .step else .tick60

theorem idling_step : fire .step idling = .next idling := by rfl

theorem idling_isExecution : IsExecution (fun _ => idling) alternating := by
  intro n
  unfold alternating
  split
  · exact idling_step
  · rfl

theorem alternating_ticks : TicksKeepComing alternating := fun n => ⟨2 * n + 1, by omega, if_neg (by omega)⟩

theorem alternating_steps : RunningIsStepped (fun _ => idling) alternating := fun n _ => ⟨2 * n, by omega, if_pos (by omega)⟩

/-- Also for `TickDecrementsTimers`. -/
theorem witness_fair_execution :
    IsExecution (fun _ => idling) alternating ∧ TicksKeepComing alternating ∧ RunningIsStepped (fun _ => idling) alternating ∧
    idling.run = .running ∧ ∀ x, decode (fetchWord idling) ≠ .instr (.ldDT x) :=
  ⟨idling_isExecution, alternating_ticks, alternating_steps, rfl, by decide⟩

/-- The idle loop under a period of one step and one tick: the states of a run of the model in which ticks keep coming. -/
def idlingRun (n : Nat) : State :=
  { idling with schedule := if n % 2 = 0 then [] else [.tick60], later := .repeating [.step, .tick60] }

theorem idlingRun_isRun : IsRun alternating idlingRun := by
  intro n
  rcases Nat.mod_two_eq_zero_or_one n with h | h
  · have h' : (n + 1) % 2 = 1 := by omega
    simp only [idlingRun, h, h']; rfl
  · have h' : (n + 1) % 2 = 0 := by omega
    simp only [idlingRun, h, h']; rfl

theorem witness_ScheduleHeadFires :
    ({ State.reset with schedule := [.tick60, .step] } : State).schedule = .tick60 :: [.step] ∧
    ({ State.reset with later := .repeating [.step, .tick60] } : State).later = .repeating (.step :: [.tick60]) ∧
    ({ State.reset with later := .free 0 } : State).later = .free 0 ∧
    State.reset.schedule = [] ∧ State.reset.later = .repeating [] ∧
    IsRun alternating idlingRun ∧ (idlingRun 0).later = .repeating [.step, .tick60] ∧
    Transition.tick60 ∈ [Transition.step, .tick60] ∧ Transition.step ∈ [Transition.step, .tick60] :=
  ⟨rfl, rfl, rfl, rfl, rfl, idlingRun_isRun, rfl, by decide, by decide⟩

theorem witness_RandomIsMasked :
    (∃ t, exec (.rnd 1 0x7F) State.reset = .next t) ∧ (0x7F#8).getLsbD 7 = false := ⟨⟨_, rfl⟩, by decide⟩

/-- Also for `AddSetsCarry`, `SubtractFlagIsStrict` and `ShiftsWorkInPlace`: a destination that is not VF. -/
theorem witness_FlagIsZeroOrOne :
    Instr.shl 14 15 ∈ [Instr.addReg 14 15, .sub 14 15, .subn 14 15, .shr 14 15, .shl 14 15] ∧ (14 : Reg) ≠ 15 ∧
    (∃ t, exec (.shl 14 15) State.reset = .next t) ∧ ∃ t, exec (.drw 0 0 0#4) State.reset = .next t := by
  refine ⟨by decide, by decide, ⟨_, rfl⟩, ⟨_, rfl⟩⟩

theorem witness_JumpSetsPC :
    State.reset.run = .running ∧ (∃ t, exec (.jp 0xFFF#12) State.reset = .next t) ∧ (0xFFF#12).toNat = 0xFFF ∧
    State.reset.PC = (0x200#12).setWidth 16 := by
  refine ⟨rfl, ⟨_, rfl⟩, by decide, by decide⟩

/-- Also for `CallThenReturnRestoresPC`: the last free entry. -/
theorem witness_CallPushesReturnAddress : ({ State.reset with sp := 15 } : State).sp.val < 16 ∧ State.reset.sp.val < 16 := by decide

theorem witness_ReturnPopsIntoPC :
    ({ State.reset with sp := 16 } : State).sp.val = (15 : Fin 16).val + 1 ∧
    ({ State.reset with sp := 1 } : State).sp.val = (0 : Fin 16).val + 1 := by decide

theorem witness_StackFaultsArePrecise : ({ State.reset with sp := 16 } : State).sp.val = 16 ∧ State.reset.sp.val = 0 := by decide

theorem witness_KeySkipsReadLatch : (withRegs [(4, 15)]).V[(4 : Reg)].toNat = (15 : Key).val := by decide

theorem witness_KeyNumberAboveFifteenFaults : (withRegs [(4, 16)]).V[(4 : Reg)].toNat > 15 := by decide

/-- The last legal `I`. -/
theorem witness_BcdStoresDigits : effAddr { State.reset with I := 0xFFD } 2 ≤ 4095 := by decide

/-- Also for `BlockLoadReadsMemory`: the last legal `I` for `x = 0xF`. -/
theorem witness_BlockStoreWritesRegisters : effAddr { State.reset with I := 0xFF0 } (15 : Reg).val ≤ 4095 := by decide

/-- The first `I` past each bound: `Fx33`, `Fx55` and `Fx65` with `x = 0xF`, `Dxyn` of two rows. -/
theorem witness_SpanPastMemoryFaults :
    effAddr { State.reset with I := 0xFFE } 2 > 4095 ∧ effAddr { State.reset with I := 0xFF1 } (15 : Reg).val > 4095 ∧
    (2#4).toNat > 0 ∧ effAddr { State.reset with I := 0xFFF } ((2#4).toNat - 1) > 4095 := by decide

/-- `F155` with `I = 0x202` stores both bytes of the next word, with `I = 0x203` and 0x201 one of them; `F033` with `I = 0x200` its
second and third digit. -/
theorem witness_StoreIsSeenByNextFetch :
    effAddr { State.reset with I := 0x202 } (1 : Reg).val ≤ 4095 ∧ (1 : Reg) ≤ 1 ∧ (1 : Reg).val = (0 : Reg).val + 1 ∧
    (State.reset.PC + 2).toNat = effAddr { State.reset with I := 0x202 } (0 : Reg).val ∧
    (State.reset.PC + 2).toNat + 1 = effAddr { State.reset with I := 0x203 } (0 : Reg).val ∧
    (State.reset.PC + 2).toNat = effAddr { State.reset with I := 0x201 } (1 : Reg).val ∧
    effAddr { State.reset with I := 0x200 } 2 ≤ 4095 ∧ (State.reset.PC + 2).toNat = effAddr { State.reset with I := 0x200 } 2 ∧
    (State.reset.PC + 2).toNat + 1 = effAddr { State.reset with I := 0x201 } 2 := by decide

/-- `F033` at 0x200 with `I = 0x202` and 156 in V0: the next word is the first two digits, 0x0105. -/
theorem test_R49_bcd_next_word : (run1 0xF033 (withMem [(0, 156)] 0x202 0 [])).map fetchWord = some 0x0105 := by decide

theorem witness_CanonicalMemoryIsUnique :
    Memory.wf defaultParams [(0x300, 0), (0xFFF, 7)] = true ∧ Memory.wf defaultParams [(0x001, 0x90)] = false ∧
    Memory.wf defaultParams [(0x1000, 7)] = false := by decide

/-- No row at all, and the last legal `I` for two rows. -/
theorem witness_DrawFlipsCoveredCells :
    (0#4).toNat = 0 ∧ effAddr { State.reset with I := 0xFFE } ((2#4).toNat - 1) ≤ 4095 := by decide

/-- A draw whose coordinates stand in V0 and V1, which it does not write. -/
theorem witness_DrawTwiceRestoresScreen :
    effAddr { State.reset with I := 0x300 } ((1#4).toNat - 1) ≤ 4095 ∧
    ∃ t, exec (.drw 0 1 1#4) { State.reset with I := 0x300 } = .next t ∧ t.V[(0 : Reg)] = State.reset.V[(0 : Reg)] ∧
      t.V[(1 : Reg)] = State.reset.V[(1 : Reg)] :=
  ⟨by decide, _, rfl, rfl, rfl⟩

theorem witness_KeyWaitHoldsUntilKeyDown : State.reset.schedule = [] ∧ State.reset.later = .repeating [] := ⟨rfl, rfl⟩

/-- The hypotheses of `StepKeepsMachineInvariant`, at reset with a tick to come. -/
theorem witness_StepKeepsMachineInvariant :
    Inv { State.reset with schedule := [.tick60] } ∧ ∃ t, step { State.reset with schedule := [.tick60] } = .next t := by
  refine ⟨⟨rfl, by decide, nofun, fun j h => absurd h (Nat.not_lt_zero _), by decide, fun pc h => ?_⟩, ⟨_, rfl⟩⟩
  cases h

/-- Also for `PcFollowsDirective`: a check that fails and one that passes. -/
theorem witness_FaultsArePrecise :
    (∃ t, exec .ret State.reset = .next t) ∧ executeCheck .ret State.reset ≠ .none ∧
    (∃ t, exec .ret { State.reset with sp := 1 } = .next t) ∧ executeCheck .ret { State.reset with sp := 1 } = .none := by
  refine ⟨⟨_, rfl⟩, by decide, ⟨_, rfl⟩, by decide⟩

theorem witness_RegisterFrame : (∃ t, exec (.addReg 0 1) State.reset = .next t) ∧ mayWrite (.addReg 0 1) 1 = false :=
  ⟨⟨_, rfl⟩, by decide⟩

theorem witness_MemoryFrame :
    (∃ t, exec (.bcd 0) { State.reset with I := 0x300 } = .next t) ∧ ¬ storesTo (.bcd 0) { State.reset with I := 0x300 } 0x303 :=
  ⟨⟨_, rfl⟩, fun h => absurd h.2 (by decide)⟩

theorem witness_SpecialStateFrame : ∃ t, exec (.addI 3) State.reset = .next t := ⟨_, rfl⟩

theorem witness_KeyLatchIsIsolated :
    (∃ u, fire (.keyDown 3) State.reset = .next u ∧ State.reset.keys[(3 : Key)] = false ∧ u.keys[(3 : Key)] = true) ∧
    (∃ u, fire (.keyUp 3) (State.reset.setKey 3 true) = .next u ∧ (State.reset.setKey 3 true).keys[(3 : Key)] = true ∧
      u.keys[(3 : Key)] = false) ∧
    (∃ t, exec (.ldKey 3) State.reset = .next t) ∧ (∃ u, fire .step atZeroWord = .next u) ∧
    decode (fetchWord atZeroWord) = .unknown 0x0000 :=
  ⟨⟨_, rfl, by decide, by decide⟩, ⟨_, rfl, by decide, by decide⟩, ⟨_, rfl⟩, ⟨_, rfl⟩, by decide⟩

end Sys2Proof.Tests
end

section
/-! The key latch (spec R19): no transition but a key event writes it, and no instruction but a key skip reads it. -/

namespace Sys2Proof.Machine

variable (s : State) (latch : Vector Bool 16)

/-! ## Only a key skip reads the latch -/

theorem push_latch (v : Word) :
    ({ s with keys := latch } : State).push v = { s.push v with keys := latch } := by
  unfold State.push
  split <;> rfl

theorem skip_latch (c : Bool) :
    ({ s with keys := latch } : State).skip c = { s.skip c with keys := latch } := by
  cases c <;> rfl

/-- A fold does the same under every latch when each of its steps does. -/
theorem foldl_latch {α : Type} (g : State → α → State)
    (hg : ∀ t a, g { t with keys := latch } a = { g t a with keys := latch }) (l : List α) :
    l.foldl g { s with keys := latch } = { l.foldl g s with keys := latch } :=
  List.foldl_hom (fun t : State => { t with keys := latch }) hg

theorem storeRegs_latch (x : Reg) :
    storeRegs { s with keys := latch } x = { storeRegs s x with keys := latch } :=
  foldl_latch s latch _ (fun _ _ => rfl) (regsUpTo x)

theorem loadRegs_latch (x : Reg) :
    loadRegs { s with keys := latch } x = { loadRegs s x with keys := latch } :=
  foldl_latch s latch _ (fun _ _ => rfl) (regsUpTo x)

/-- A guarded effect does the same under every latch when its effect does: fault entry reads and writes none. -/
theorem guarded_latch {f : FaultRecord} {e e' t : State} (h : guarded f s e = .next t)
    (he : e' = { e with keys := latch }) :
    guarded f { s with keys := latch } e' = .next { t with keys := latch } := by
  subst he
  cases f <;> (cases h; rfl)

/-- An instruction other than `Ex9E` and `ExA1` does the same under every latch, and keeps it (R19). -/
theorem exec_latch {i : Instr} {t : State} (h : exec i s = .next t)
    (hp : ∀ x, i ≠ .skp x) (hn : ∀ x, i ≠ .sknp x) :
    exec i { s with keys := latch } = .next { t with keys := latch } := by
  cases i
  case skp x => exact absurd rfl (hp x)
  case sknp x => exact absurd rfl (hn x)
  case call => exact guarded_latch s latch h (congrArg (State.jump · _) (push_latch s latch _))
  case stRegs x => exact guarded_latch s latch h (congrArg State.next (storeRegs_latch s latch x))
  case ldRegs x => exact guarded_latch s latch h (congrArg State.next (loadRegs_latch s latch x))
  case ret | drw | bcd => exact guarded_latch s latch h rfl
  case seImm | sneImm | seReg | sneReg => cases h; exact congrArg Host.Outcome.next (skip_latch s latch _)
  all_goals (cases h; rfl)

/-- A faulted core and a waiting core do nothing (R8, R154). -/
theorem cycle_of_not_running (h : s.run ≠ .running) : cycle s = .next s := by
  cases hr : s.run with
  | running => exact absurd hr h
  | awaitingKey => exact cycle_of_awaitingKey s hr
  | faulted => exact cycle_of_faulted s hr

/-- `Step()` does the same under every latch, unless it runs `Ex9E` or `ExA1`. -/
theorem cycle_latch {t : State} (h : cycle s = .next t)
    (hk : ∀ x, decode (fetchWord s) ≠ .instr (.skp x) ∧ decode (fetchWord s) ≠ .instr (.sknp x)) :
    cycle { s with keys := latch } = .next { t with keys := latch } := by
  by_cases hr : s.run = .running
  · rcases cycle_cases s hr h with ⟨hp, rfl⟩ | ⟨hp, w, hd, rfl⟩ | ⟨hp, i, hd, he⟩
    · exact cycle_of_past { s with keys := latch } hr hp
    · refine (cycle_of_fetched { s with keys := latch } hr hp).trans ?_
      exact congrArg (execDecoded · { s with keys := latch }) hd
    · refine (cycle_of_fetched { s with keys := latch } hr hp).trans ?_
      refine (congrArg (execDecoded · { s with keys := latch }) hd).trans (exec_latch s latch he ?_ ?_)
      · rintro x rfl; exact (hk x).1 hd
      · rintro x rfl; exact (hk x).2 hd
  · rw [cycle_of_not_running s hr] at h
    cases h
    exact cycle_of_not_running { s with keys := latch } hr

/-- A load that answers a next state is of an image that fits, and writes memory only (R191). -/
theorem loadProgram_cases {bytes : List Byte} {u : State} (h : loadProgram bytes s = .next u) :
    ¬ bytes.length > Config.progMax ∧ u = { s with mem := Memory.writeList s.params s.mem Config.progBase bytes } := by
  unfold loadProgram at h
  split at h
  · cases h
  · next fits => exact ⟨fits, (Host.Outcome.next.inj h).symm⟩

/-- Every transition but the `Step()` of a key skip does the same under every latch, apart from what it leaves in the latch. -/
theorem fire_latch {t : Transition} {u : State} (h : fire t s = .next u)
    (hk : t = .step → ∀ x, decode (fetchWord s) ≠ .instr (.skp x) ∧ decode (fetchWord s) ≠ .instr (.sknp x)) :
    ∃ v, fire t { s with keys := latch } = .next v ∧ v = { u with keys := v.keys } := by
  cases t with
  | step => exact ⟨_, cycle_latch s latch h (hk rfl), rfl⟩
  | tick60 | keyUp | reset => cases h; exact ⟨_, rfl, rfl⟩
  | keyDown k => cases h; refine ⟨_, rfl, ?_⟩; unfold keyDown; dsimp only; split <;> rfl
  | deliver => cases h; refine ⟨_, rfl, ?_⟩; unfold deliver; dsimp only; split <;> rfl
  | loadProgram bytes =>
    obtain ⟨fits, rfl⟩ := loadProgram_cases s h
    exact ⟨_, if_neg fits, rfl⟩

/-! ## Only a key event writes the latch -/

theorem guarded_keys {f : FaultRecord} {e t : State} (h : guarded f s e = .next t) (he : e.keys = s.keys) :
    t.keys = s.keys := by
  rcases guarded_cases s h with ⟨-, rfl⟩ | ⟨-, rfl⟩
  · exact he
  · rfl

/-- No instruction writes the latch. One that is no key skip does the same under every latch and keeps it, so it keeps
the one it is run under. -/
theorem exec_keys {i : Instr} {t : State} (h : exec i s = .next t) : t.keys = s.keys := by
  have keeps (hp : ∀ x, i ≠ .skp x) (hn : ∀ x, i ≠ .sknp x) : t.keys = s.keys := by
    have kept : t = { t with keys := s.keys } :=
      Host.Outcome.next.inj (h.symm.trans (exec_latch s s.keys h hp hn))
    rw [kept]
  cases i
  case skp x => exact guarded_keys s h (s.skip_keys _)
  case sknp x => exact guarded_keys s h (s.skip_keys _)
  all_goals exact keeps nofun nofun

theorem cycle_keys {t : State} (h : cycle s = .next t) : t.keys = s.keys := by
  by_cases hr : s.run = .running
  · rcases cycle_cases s hr h with ⟨-, rfl⟩ | ⟨-, w, -, rfl⟩ | ⟨-, i, -, he⟩
    · rfl
    · rfl
    · exact exec_keys s he
  · rw [cycle_of_not_running s hr] at h
    cases h
    rfl

theorem keyDown_keys (k : Key) : (keyDown k s).keys = s.keys.set k true := by
  unfold keyDown
  dsimp only
  split <;> rfl

theorem deliver_keys : (deliver s).keys = s.keys := by
  unfold deliver
  split <;> rfl

/-- What a transition leaves in the latch: `KeyDown(k)` sets the key, `KeyUp(k)` clears it, any other keeps the latch (R19). -/
theorem fire_keys {t : Transition} {u : State} (h : fire t s = .next u) :
    (∃ k, t = .keyDown k ∧ u.keys = s.keys.set k true) ∨ (∃ k, t = .keyUp k ∧ u.keys = s.keys.set k false) ∨
      u.keys = s.keys := by
  cases t with
  | step => exact .inr (.inr (cycle_keys s h))
  | keyDown k => cases h; exact .inl ⟨k, rfl, keyDown_keys s k⟩
  | keyUp k => cases h; exact .inr (.inl ⟨k, rfl, rfl⟩)
  | tick60 | reset => cases h; exact .inr (.inr rfl)
  | deliver => cases h; exact .inr (.inr (deliver_keys s))
  | loadProgram bytes =>
    obtain ⟨-, rfl⟩ := loadProgram_cases s h
    exact .inr (.inr rfl)

/-- Writing one key's bit changes no other's. -/
theorem eq_of_set_key_ne {latch : Vector Bool 16} {j k : Key} {b : Bool} (h : (latch.set j b)[k] ≠ latch[k]) : k = j := by
  by_contra hkj
  exact h (by simp [hkj])

/-- A transition that changes one key's bit is that key's own event: `KeyDown(k)` if it is now set, else `KeyUp(k)`. -/
theorem fire_eq_keyEvent {t : Transition} {u : State} {k : Key} (h : fire t s = .next u) (changed : u.keys[k] ≠ s.keys[k]) :
    t = if u.keys[k] then .keyDown k else .keyUp k := by
  rcases fire_keys s h with ⟨j, rfl, e⟩ | ⟨j, rfl, e⟩ | e
  · obtain rfl := eq_of_set_key_ne (e ▸ changed)
    simp [e]
  · obtain rfl := eq_of_set_key_ne (e ▸ changed)
    simp [e]
  · exact absurd (congrArg (·[k]) e) changed

/-- Settles O60: what each transition leaves in the latch (`fire_eq_keyEvent`, `keyDown_keys`), and what each instruction and
each transition does under another latch (`exec_latch`, `fire_latch`). -/
theorem keyLatchIsIsolated : Obligations.KeyLatchIsIsolated := by
  refine ⟨fun t s u k h up down => ?_, fun t s u k h down up => ?_,
    fun s k => ⟨_, _, rfl, keyDown_keys s k, rfl, rfl⟩,
    fun _ s _ latch => exec_latch s latch,
    fun _ s _ latch => fire_latch s latch⟩
  · rw [fire_eq_keyEvent s h (by rw [up, down]; decide), down, if_pos rfl]
  · rw [fire_eq_keyEvent s h (by rw [up, down]; decide), up, if_neg Bool.false_ne_true]

end Sys2Proof.Machine
end

section
/-! The jump `1nnn` (spec R100): its word, its effect on any state, and the fetch after a jump past the last instruction. -/

namespace Sys2Proof.Machine

/-! ## The word of a jump -/

theorem toNat_encode_jp (nnn : Addr12) : (encode (.jp nnn)).toNat = 0x1000 + nnn.toNat := toNat_formatNNN 0x1#4 nnn

/-- The high nibble 1 alone selects the jump, and the other twelve bits are its address (R64). -/
theorem decode_of_opField_one {w : Word} (h : opField w = 0x1#4) : decode w = .instr (.jp (nnnField w)) := by
  simp [decode, h]

theorem decode_encode_jp (nnn : Addr12) : decode (encode (.jp nnn)) = .instr (.jp nnn) := by
  have selected : decode (formatNNN 0x1#4 nnn) = .instr (.jp (nnnField (formatNNN 0x1#4 nnn))) :=
    decode_of_opField_one (opField_formatNNN ..)
  rwa [nnnField_formatNNN] at selected

/-! ## The effect of a jump -/

variable (s : State)

/-- A jump answers a next state from every state, whatever its target (R100). -/
theorem exec_jp (nnn : Addr12) : exec (.jp nnn) s = .next (s.jump (zextAddr nnn)) := rfl

/-- A jump to where PC stands changes nothing. -/
theorem jump_self {target : Word} (h : s.PC = target) : s.jump target = s := by
  subst h
  rfl

/-- `Step()` at 0xFFF, the one 12-bit address where no instruction fits, faults at the fetch of the byte at 0x1000 (R42). -/
theorem cycle_of_lastByte (running : s.run = .running) (h : s.PC = 0xFFF#16) :
    cycle s = .next (s.raise (.addressOutOfRange 0xFFF#16 0x1000)) := by
  have past : s.PC.toNat > 4094 := by rw [h]; decide
  have record : fetchFault s = .addressOutOfRange 0xFFF#16 0x1000 := by rw [fetchFault, h]; rfl
  rw [cycle_of_past s running past, record]

/-- Settles O30: the word of a jump (`toNat_encode_jp`, `decode_encode_jp`), its effect (`exec_jp`), the fault of the fetch after
a jump to 0xFFF (`cycle_of_lastByte`), and the jump to its own address (`jump_self`). -/
theorem jumpSetsPC : Obligations.JumpSetsPC := by
  refine ⟨fun nnn => ⟨toNat_encode_jp nnn, decode_encode_jp nnn⟩, exec_jp, fun s t nnn running h last => ?_,
    fun s nnn here => (exec_jp s nnn).trans (congrArg _ (jump_self s here))⟩
  obtain rfl : nnn = 0xFFF#12 := BitVec.eq_of_toNat_eq last
  cases h
  exact cycle_of_lastByte (s.jump 0xFFF#16) running rfl

end Sys2Proof.Machine
end

section
/-! The glyph address `Fx29` (spec R123): its word, the address it computes, and its effect on any state. -/

namespace Sys2Proof.Machine

/-! ## The word of `Fx29` -/

theorem toNat_encode_ldFont (x : Reg) : (encode (.ldFont x)).toNat = 0xF029 + 0x100 * x.val := by
  have fields : (encode (.ldFont x)).toNat = 0xF * 4096 + x.val * 256 + 0x29 := toNat_formatXKK 0xF#4 x 0x29#8
  omega

/-- The high nibble 0xF and the low byte 0x29 select `Fx29`, and the nibble between them is its register (R64). -/
theorem decode_of_font_fields {w : Word} (hop : opField w = 0xF#4) (hkk : kkField w = 0x29#8) :
    decode w = .instr (.ldFont (xField w)) := by
  simp [decode, decodeGroupF, hop, hkk]

theorem decode_encode_ldFont (x : Reg) : decode (encode (.ldFont x)) = .instr (.ldFont x) := by
  have selected : decode (formatXKK 0xF#4 x 0x29#8) = .instr (.ldFont (xField (formatXKK 0xF#4 x 0x29#8))) :=
    decode_of_font_fields (opField_formatXKK ..) (kkField_formatXKK ..)
  rwa [xField_formatXKK] at selected

/-! ## The glyph address -/

/-- The last glyph address, of the value 0xFF in the highest font region (R4, R123). -/
theorem glyph_sum_le (p : Params) (v : Byte) : p.fontBase.val + 5 * v.toNat ≤ 0x6AB := by
  have base := p.fontBase.isLt
  have value := v.isLt
  omega

/-- The sum of R123 fits a word, so that the glyph address is the sum itself. -/
theorem toNat_glyphAddr (p : Params) (v : Byte) : (glyphAddr p v).toNat = p.fontBase.val + 5 * v.toNat :=
  (BitVec.toNat_ofNat ..).trans (Nat.mod_eq_of_lt ((glyph_sum_le p v).trans_lt (by decide)))

/-! ## The effect of `Fx29` -/

/-- `Fx29` answers a next state from every state: `I` and PC change, nothing else (R123). -/
theorem exec_ldFont (s : State) (x : Reg) :
    exec (.ldFont x) s = .next { s with I := glyphAddr s.params s.V[x], PC := s.PC + 2 } := rfl

/-- Settles O40: the word of `Fx29` (`toNat_encode_ldFont`, `decode_encode_ldFont`), its effect (`exec_ldFont`), and the address
it leaves in `I`, with its bound (`toNat_glyphAddr`, `glyph_sum_le`). -/
theorem glyphAddressFormula : Obligations.GlyphAddressFormula :=
  ⟨fun x => ⟨toNat_encode_ldFont x, decode_encode_ldFont x⟩,
    fun s x => ⟨_, exec_ldFont s x, rfl, toNat_glyphAddr s.params s.V[x],
      (toNat_glyphAddr s.params s.V[x]).trans_le (glyph_sum_le s.params s.V[x])⟩⟩

end Sys2Proof.Machine
end

section
/-! The key-wait (spec R153, R154, R172): what each instruction and each transition makes of the run state, and which of them
enter the wait and leave it. -/

namespace Sys2Proof.Machine

variable (s : State)

/-! ## The run state after an instruction -/

theorem storeRegs_run (x : Reg) : (storeRegs s x).run = s.run :=
  (congrArg State.run (storeRegs_spec s x).1 :)

theorem loadRegs_run (x : Reg) : (loadRegs s x).run = s.run :=
  (congrArg State.run (loadRegs_spec s x).1 :)

theorem guarded_run {f : FaultRecord} {e u : State} (h : guarded f s e = .next u) (he : e.run = s.run) :
    u.run = s.run ∨ u.run = .faulted := by
  rcases guarded_cases s h with ⟨-, rfl⟩ | ⟨-, rfl⟩
  · exact .inl he
  · exact .inr rfl

/-- `Fx0A` answers a next state from every state: the core waits for a key, PC held (R153). -/
theorem exec_ldKey (x : Reg) : exec (.ldKey x) s = .next { s with run := .awaitingKey, waitReg := x } := rfl

/-- An instruction other than `Fx0A` keeps the run state, or its check fails and the core faults (R20). -/
theorem exec_run {i : Instr} {u : State} (h : exec i s = .next u) (hi : ∀ x, i ≠ .ldKey x) :
    u.run = s.run ∨ u.run = .faulted := by
  cases i
  case ldKey x => exact absurd rfl (hi x)
  case call => exact guarded_run s h (s.push_run _)
  case stRegs x => exact guarded_run s h (storeRegs_run s x)
  case ldRegs x => exact guarded_run s h (loadRegs_run s x)
  case skp | sknp => exact guarded_run s h (s.skip_run _)
  case ret | drw | bcd => exact guarded_run s h rfl
  case seImm | sneImm | seReg | sneReg => cases h; exact .inl (s.skip_run _)
  all_goals (cases h; exact .inl rfl)

/-! ## Entering the wait -/

/-- A running core enters the wait at no instruction but `Fx0A`, whose register is the target (R153). -/
theorem eq_ldKey_of_exec_awaitingKey {i : Instr} {u : State} (running : s.run = .running) (h : exec i s = .next u)
    (waits : u.run = .awaitingKey) : ∃ x, i = .ldKey x ∧ u.waitReg = x := by
  by_cases hi : ∃ x, i = .ldKey x
  · obtain ⟨x, rfl⟩ := hi
    cases h
    exact ⟨x, rfl, rfl⟩
  · rcases exec_run s h (not_exists.1 hi) with kept | faults
    · simp [kept, running] at waits
    · simp [faults] at waits

/-- A `Step()` that enters the wait runs `Fx0A`: a fetch fault stops the core and an unknown word leaves it running (R165, R168). -/
theorem decode_eq_ldKey_of_cycle_awaitingKey {u : State} (running : s.run = .running) (h : cycle s = .next u)
    (waits : u.run = .awaitingKey) : ∃ x, decode (fetchWord s) = .instr (.ldKey x) ∧ u.waitReg = x := by
  rcases cycle_cases s running h with ⟨-, rfl⟩ | ⟨-, w, -, rfl⟩ | ⟨-, i, hd, he⟩
  · simp at waits
  · simp [running] at waits
  · obtain ⟨x, rfl, target⟩ := eq_ldKey_of_exec_awaitingKey s running he waits
    exact ⟨x, hd, target⟩

/-! ## The run state after a transition -/

theorem deliver_run : (deliver s).run = s.run := by
  unfold deliver
  split <;> rfl

/-- No transition but `Step()`, a key-down and `Reset()` writes the run state (R20). -/
theorem fire_run {t : Transition} {u : State} (h : fire t s = .next u) :
    t = .step ∨ (∃ k, t = .keyDown k) ∨ t = .reset ∨ u.run = s.run := by
  cases t with
  | step => exact .inl rfl
  | keyDown k => exact .inr (.inl ⟨k, rfl⟩)
  | reset => exact .inr (.inr (.inl rfl))
  | tick60 | keyUp => cases h; exact .inr (.inr (.inr rfl))
  | deliver => cases h; exact .inr (.inr (.inr (deliver_run s)))
  | loadProgram bytes =>
    obtain ⟨-, rfl⟩ := loadProgram_cases s h
    exact .inr (.inr (.inr rfl))

/-- A key-down of a core that does not wait latches the key and does nothing else (R172). -/
theorem keyDown_of_not_awaitingKey (k : Key) (h : s.run ≠ .awaitingKey) : keyDown k s = s.setKey k true := if_neg h

/-- A key-down of a waiting core latches the key, writes it into the target register, and lets the core run on behind `Fx0A`
(R172, D14). -/
theorem keyDown_of_awaitingKey (k : Key) (h : s.run = .awaitingKey) :
    keyDown k s = { s with
      keys := s.keys.set k true
      V := s.V.set s.waitReg (BitVec.ofNat 8 k.val)
      run := .running
      PC := s.PC + 2 } := if_pos h

/-- A running core enters the wait by no transition but a `Step()` of `Fx0A`. -/
theorem eq_step_of_fire_awaitingKey {t : Transition} {u : State} (running : s.run = .running) (h : fire t s = .next u)
    (waits : u.run = .awaitingKey) : t = .step ∧ ∃ x, decode (fetchWord s) = .instr (.ldKey x) ∧ u.waitReg = x := by
  rcases fire_run s h with rfl | ⟨k, rfl⟩ | rfl | kept
  · exact ⟨rfl, decode_eq_ldKey_of_cycle_awaitingKey s running h waits⟩
  · cases h
    simp [keyDown_of_not_awaitingKey s k (by simp [running]), running] at waits
  · cases h
    cases waits
  · simp [kept, running] at waits

/-! ## Holding and leaving the wait -/

/-- A waiting core's `Step()` answers `Hold` (R154). -/
theorem stepOutcome_of_awaitingKey (h : s.run = .awaitingKey) : stepOutcome s = .hold := by simp [stepOutcome, h]

/-- A waiting core leaves the wait by no transition but `Reset()` and a key-down (R154, R172). -/
theorem eq_reset_or_keyDown_of_fire_leaves {t : Transition} {u : State} (waiting : s.run = .awaitingKey)
    (h : fire t s = .next u) (leaves : u.run ≠ .awaitingKey) : t = .reset ∨ ∃ k, t = .keyDown k := by
  rcases fire_run s h with rfl | key | reset | kept
  · obtain rfl : s = u := Host.Outcome.next.inj ((cycle_of_awaitingKey s waiting).symm.trans h)
    exact absurd waiting leaves
  · exact .inr key
  · exact .inl reset
  · exact absurd (kept.trans waiting) leaves

/-- Settles O9: `Fx0A` enters the wait (`exec_ldKey`) and nothing else does (`eq_ldKey_of_exec_awaitingKey`,
`eq_step_of_fire_awaitingKey`); a waiting core holds (`cycle_of_awaitingKey`, `stepOutcome_of_awaitingKey`) until a key-down
(`keyDown_of_awaitingKey`) or a reset (`eq_reset_or_keyDown_of_fire_leaves`). -/
theorem waitingCoreHolds : Obligations.WaitingCoreHolds :=
  ⟨fun s x => ⟨_, exec_ldKey s x, rfl, rfl⟩,
    fun s waiting =>
      ⟨cycle_of_awaitingKey s waiting, stepOutcome_of_awaitingKey s waiting,
        fun _ _ => eq_reset_or_keyDown_of_fire_leaves s waiting,
        fun k => congrArg Host.Outcome.next (keyDown_of_awaitingKey s k waiting),
        ⟨resetMachine s, rfl, rfl⟩⟩,
    fun _ s _ running h waits => eq_ldKey_of_exec_awaitingKey s running h waits,
    fun _ s _ running h waits => eq_step_of_fire_awaitingKey s running h waits⟩

end Sys2Proof.Machine
end

section
/-! The key-up (spec R173): one transition that clears one bit of the latch, in every run state. -/

namespace Sys2Proof.Machine

variable (s : State) (k : Key)

/-- Writing a key's bit is read back as written. -/
theorem setKey_keys_same (b : Bool) : (s.setKey k b).keys[k] = b := Vector.getElem_set_self k.isLt

/-- Writing a key's bit leaves the bit of every other key. -/
theorem setKey_keys_ne (b : Bool) {j : Key} (h : j ≠ k) : (s.setKey k b).keys[j] = s.keys[j] :=
  not_imp_comm.1 eq_of_set_key_ne h

/-- `KeyUp(k)` answers a next state from every state, whatever the run state: the key's bit is cleared (R173). -/
theorem fire_keyUp : fire (.keyUp k) s = .next (s.setKey k false) := rfl

/-- Settles O20: a key-up is one write of the latch (`fire_keyUp`), which clears the key's own bit (`setKey_keys_same`) and leaves
every other (`setKey_keys_ne`). -/
theorem keyUpOnlyClearsLatch : Obligations.KeyUpOnlyClearsLatch :=
  fun s k => ⟨s.setKey k false, fire_keyUp s k, rfl, setKey_keys_same s k false,
    fun _ other => setKey_keys_ne s k false other, s.setKey_run k false⟩

end Sys2Proof.Machine
end

section
/-! The encoding (spec R60 to R67): decoding gives an encoded instruction back and drops no bit of a word, and it agrees with the
opcode table, its unknown words included. -/

namespace Sys2Proof

/-! ## Every instruction is well formed -/

@[simp] theorem wellFormed_reg (x : Reg) : (RawOperand.reg x.val).wellFormed = true := decide_eq_true x.isLt
@[simp] theorem wellFormed_imm8 (kk : Byte) : (RawOperand.imm8 kk.toNat).wellFormed = true := decide_eq_true kk.isLt
@[simp] theorem wellFormed_addr (nnn : Addr12) : (RawOperand.addr nnn.toNat).wellFormed = true := decide_eq_true nnn.isLt
@[simp] theorem wellFormed_rows (n : Nibble) : (RawOperand.rows n.toNat).wellFormed = true := decide_eq_true n.isLt

theorem wellFormed_instr (i : Instr) : i.wellFormed = true := by
  cases i <;> simp [Instr.wellFormed, Instr.operands]

/-! ## Decoding an encoded instruction -/

/-- The cases are the groups of R64: 0x0 by the whole word, 0x8 by the low nibble, 0xE and 0xF by the low byte, and the rest by the
high nibble, which 0x5 and 0x9 check against a low nibble of 0. -/
theorem decode_encode (i : Instr) : decode (encode i) = .instr i := by
  cases i
  case cls | ret => rfl
  case ldReg | orReg | andReg | xorReg | addReg | sub | shr | subn | shl => simp [encode, decode, decodeGroup8]
  case skp | sknp => simp [encode, decode, decodeGroupE]
  case ldFromDT | ldKey | ldDT | ldST | addI | ldFont | bcd | stRegs | ldRegs => simp [encode, decode, decodeGroupF]
  all_goals simp [encode, decode]

theorem decodeBytes_encodeBytes (i : Instr) (rest : List Byte) :
    decodeBytes (encodeBytes i ++ rest) = .ok (i, rest) := by
  simp [encodeBytes, decodeBytes, decode_encode]

/-- Settles O1: every operand has the width of its field (`wellFormed_instr`), and each group of the decoder finds the fields that
the encoder's format put into the word (`decode_encode`, `decodeBytes_encodeBytes`). -/
theorem decodeEncodeRoundTrip : Obligations.DecodeEncodeRoundTrip :=
  fun i => ⟨wellFormed_instr i, decode_encode i, decodeBytes_encodeBytes i⟩

/-! ## Decoding drops no bit -/

/-- The word that a result of decoding stands for. -/
def Decoded.word : Decoded → Word
  | .instr i => encode i
  | .unknown w => w

variable {w p : Word} {op : Nibble}

theorem formatNNN_of_op (h : opField w = op) : formatNNN op (nnnField w) = w := h ▸ formatNNN_fields w

theorem formatXKK_of_op (h : opField w = op) : formatXKK op (xField w) (kkField w) = w := h ▸ formatXKK_fields w

theorem formatXYN_of_op (h : opField w = op) : formatXYN op (xField w) (yField w) (nField w) = w := h ▸ formatXYN_fields w

theorem formatXKK_of_minor {kk : Byte} (h : opField w = op) (hkk : kkField w = kk) : formatXKK op (xField w) kk = w :=
  hkk ▸ formatXKK_of_op h

theorem formatXYN_of_minor {n : Nibble} (h : opField w = op) (hn : nField w = n) :
    formatXYN op (xField w) (yField w) n = w :=
  hn ▸ formatXYN_of_op h

theorem word_decodeGroup0 : (decodeGroup0 w).word = w := by
  unfold decodeGroup0
  repeat' split
  case isFalse.isFalse => rfl
  all_goals next fixed => exact fixed.symm

theorem word_decodeGroup8 (h : opField w = 0x8#4) : (decodeGroup8 w).word = w := by
  unfold decodeGroup8
  split
  case h_10 => rfl
  all_goals next hn => exact formatXYN_of_minor h (BitVec.eq_of_toNat_eq hn)

theorem word_decodeGroupE (h : opField w = 0xE#4) : (decodeGroupE w).word = w := by
  unfold decodeGroupE
  repeat' split
  case isFalse.isFalse => rfl
  all_goals next hkk => exact formatXKK_of_minor h hkk

theorem word_decodeGroupF (h : opField w = 0xF#4) : (decodeGroupF w).word = w := by
  unfold decodeGroupF
  repeat' split
  case isFalse.isFalse.isFalse.isFalse.isFalse.isFalse.isFalse.isFalse.isFalse => rfl
  all_goals next hkk => exact formatXKK_of_minor h hkk

/-- Decoding drops no bit of the word: its result stands for it. -/
theorem word_decode (w : Word) : (decode w).word = w := by
  have lt := (opField w).isLt
  unfold decode
  split
  case h_1 => exact word_decodeGroup0
  case h_9 op => exact word_decodeGroup8 (BitVec.eq_of_toNat_eq op)
  case h_15 op => exact word_decodeGroupE (BitVec.eq_of_toNat_eq op)
  case h_16 =>
    have op : (opField w).toNat = 0xF := by simp only [imp_false] at *; omega
    exact word_decodeGroupF (BitVec.eq_of_toNat_eq op)
  case h_6 op | h_10 op =>
    split
    · next hn => exact formatXYN_of_minor (BitVec.eq_of_toNat_eq op) hn
    · rfl
  case h_14 op => exact formatXYN_of_op (BitVec.eq_of_toNat_eq op)
  case h_2 op | h_3 op | h_11 op | h_12 op => exact formatNNN_of_op (BitVec.eq_of_toNat_eq op)
  all_goals next op => exact formatXKK_of_op (BitVec.eq_of_toNat_eq op)

theorem encode_of_decode {i : Instr} (h : decode w = .instr i) : encode i = w := by
  have word := word_decode w
  rwa [h] at word

theorem eq_of_decode_unknown {v : Word} (h : decode w = .unknown v) : v = w := by
  have word := word_decode w
  rwa [h] at word

/-- Settles O2: the result of decoding stands for the word (`word_decode`). -/
theorem encodeDecodeRoundTrip : Obligations.EncodeDecodeRoundTrip := fun _ _ => encode_of_decode

/-! ## What a word that selects a row has in its fields -/

theorem and_op_mask (w : Word) : w &&& 0xF000#16 = formatNNN (opField w) 0#12 := by
  simpa only [formatNNN_fields] using formatNNN_and_mask (opField w) (nnnField w)

theorem and_op_n_mask (w : Word) : w &&& 0xF00F#16 = formatXYN (opField w) 0 0 (nField w) := by
  simpa only [formatXYN_fields] using formatXYN_and_mask (opField w) (xField w) (yField w) (nField w)

theorem and_op_kk_mask (w : Word) : w &&& 0xF0FF#16 = formatXKK (opField w) 0 (kkField w) := by
  simpa only [formatXKK_fields] using formatXKK_and_mask (opField w) (xField w) (kkField w)

theorem op_of_selects (h : OpcodeRow.selects ⟨p, 0xF000#16⟩ w = true) : opField w = p.extractLsb' 12 4 := by
  obtain rfl : w &&& 0xF000#16 = p := eq_of_beq h
  rw [and_op_mask, ← opField, opField_formatNNN]

theorem op_n_of_selects (h : OpcodeRow.selects ⟨p, 0xF00F#16⟩ w = true) :
    opField w = p.extractLsb' 12 4 ∧ nField w = p.extractLsb' 0 4 := by
  obtain rfl : w &&& 0xF00F#16 = p := eq_of_beq h
  rw [and_op_n_mask, ← opField, ← nField, opField_formatXYN, nField_formatXYN]
  exact ⟨rfl, rfl⟩

theorem op_kk_of_selects (h : OpcodeRow.selects ⟨p, 0xF0FF#16⟩ w = true) :
    opField w = p.extractLsb' 12 4 ∧ kkField w = p.extractLsb' 0 8 := by
  obtain rfl : w &&& 0xF0FF#16 = p := eq_of_beq h
  rw [and_op_kk_mask, ← opField, ← kkField, opField_formatXKK, kkField_formatXKK]
  exact ⟨rfl, rfl⟩

theorem eq_of_selects (h : OpcodeRow.selects ⟨p, 0xFFFF#16⟩ w = true) : w = p :=
  (show w &&& 0xFFFF#16 = w from BitVec.and_allOnes).symm.trans (eq_of_beq h)

/-! ## The rows of the table -/

/-- A word that selects the row of an instruction decodes to an instruction of that row: the mask keeps just the fields by which
the decoder selects. -/
theorem decode_of_selects {j : Instr} (h : (rowOf j).selects w = true) :
    ∃ i, decode w = .instr i ∧ rowOf i = rowOf j := by
  cases j
  case cls | ret =>
    obtain rfl := eq_of_selects h
    exact ⟨_, rfl, rfl⟩
  case seReg | sneReg =>
    obtain ⟨op, n⟩ := op_n_of_selects h
    simp [decode, op, n, rowOf]
  case ldReg | orReg | andReg | xorReg | addReg | sub | shr | subn | shl =>
    obtain ⟨op, n⟩ := op_n_of_selects h
    simp [decode, decodeGroup8, op, n, rowOf]
  case skp | sknp =>
    obtain ⟨op, kk⟩ := op_kk_of_selects h
    simp [decode, decodeGroupE, op, kk, rowOf]
  case ldFromDT | ldKey | ldDT | ldST | addI | ldFont | bcd | stRegs | ldRegs =>
    obtain ⟨op, kk⟩ := op_kk_of_selects h
    simp [decode, decodeGroupF, op, kk, rowOf]
  all_goals
    have op := op_of_selects h
    simp [decode, op, rowOf]

theorem rowOf_selects_encode (i : Instr) : (rowOf i).selects (encode i) = true := by
  cases i
  case cls | ret => rfl
  case jp | call | ldI | jpV0 => exact Laws.Row.selects_of_mask (formatNNN_and_mask ..)
  case seImm | sneImm | ldImm | addImm | rnd => exact Laws.Row.selects_of_mask (formatXKK_and_op ..)
  case drw => exact Laws.Row.selects_of_mask (formatXYN_and_op ..)
  case seReg | sneReg | ldReg | orReg | andReg | xorReg | addReg | sub | shr | subn | shl =>
    exact Laws.Row.selects_of_mask (formatXYN_and_mask ..)
  all_goals exact Laws.Row.selects_of_mask (formatXKK_and_mask ..)

theorem rowOf_selects_of_decode {i : Instr} (h : decode w = .instr i) : (rowOf i).selects w = true :=
  encode_of_decode h ▸ rowOf_selects_encode i

theorem rowOf_mem_opcodeTable (i : Instr) : rowOf i ∈ opcodeTable := by
  cases i <;> simp [opcodeTable, rowSamples, rowOf]

theorem decode_of_selects_mem {r : OpcodeRow} (hr : r ∈ opcodeTable) (h : r.selects w = true) :
    ∃ i, decode w = .instr i ∧ rowOf i = r := by
  obtain ⟨j, -, rfl⟩ := List.mem_map.1 hr
  exact decode_of_selects h

theorem eq_rowOf_of_selects {i : Instr} {r : OpcodeRow} (h : decode w = .instr i) (hr : r ∈ opcodeTable)
    (hs : r.selects w = true) : r = rowOf i := by
  obtain ⟨j, hj, rfl⟩ := decode_of_selects_mem hr hs
  rw [Decoded.instr.inj (h.symm.trans hj)]

theorem decode_eq_unknown_iff_row : decode w = .unknown w ↔ ∀ r ∈ opcodeTable, r.selects w = false := by
  constructor
  · intro h r hr
    by_contra hs
    obtain ⟨i, hi, -⟩ := decode_of_selects_mem hr (Bool.not_eq_false _ ▸ hs)
    cases h.symm.trans hi
  · intro none
    cases h : decode w with
    | unknown v => rw [eq_of_decode_unknown h]
    | instr i =>
      have row := rowOf_selects_of_decode h
      rw [none _ (rowOf_mem_opcodeTable i)] at row
      cases row

/-- Settles O3: an instruction's word selects its row (`rowOf_selects_of_decode`), a word that selects a row of the table decodes to
an instruction of that row (`decode_of_selects_mem`), and decoding has one result. -/
theorem decodeAgreesWithOpcodeTable : Obligations.DecodeAgreesWithOpcodeTable :=
  fun _ => ⟨decode_eq_unknown_iff_row, fun _ => eq_of_decode_unknown,
    fun i h => ⟨rowOf_mem_opcodeTable i, rowOf_selects_of_decode h, fun _ => eq_rowOf_of_selects h⟩⟩

/-! ## The unknown words of each group -/

/-- The high nibble and the twelve bits after it tell the word. -/
theorem eq_formatNNN_iff (h : opField w = op) (nnn : Addr12) : w = formatNNN op nnn ↔ nnnField w = nnn :=
  ⟨fun e => e ▸ nnnField_formatNNN .., fun e => e ▸ (formatNNN_of_op h).symm⟩

theorem decodeGroup0_eq_unknown_iff (h : opField w = 0x0#4) :
    decodeGroup0 w = .unknown w ↔ nnnField w ≠ 0x0E0#12 ∧ nnnField w ≠ 0x0EE#12 := by
  have cls : w = 0x00E0#16 ↔ nnnField w = 0x0E0#12 := eq_formatNNN_iff h 0x0E0#12
  have ret : w = 0x00EE#16 ↔ nnnField w = 0x0EE#12 := eq_formatNNN_iff h 0x0EE#12
  rw [ne_eq, ne_eq, ← cls, ← ret]
  clear cls ret
  unfold decodeGroup0
  repeat' split
  all_goals simp [*]

theorem decodeGroup8_eq_unknown_iff :
    decodeGroup8 w = .unknown w ↔ nField w ∈ [0x8#4, 0x9#4, 0xA#4, 0xB#4, 0xC#4, 0xD#4, 0xF#4] := by
  have lt := (nField w).isLt
  simp only [List.mem_cons, List.not_mem_nil, or_false, ← BitVec.toNat_inj, BitVec.toNat_ofNat, Nat.reducePow, Nat.reduceMod]
  unfold decodeGroup8
  split
  case h_10 => simp only [imp_false, true_iff] at *; omega
  all_goals simp [*]

theorem decodeGroupE_eq_unknown_iff : decodeGroupE w = .unknown w ↔ kkField w ∉ [0x9E#8, 0xA1#8] := by
  unfold decodeGroupE
  repeat' split
  all_goals simp [*]

theorem decodeGroupF_eq_unknown_iff :
    decodeGroupF w = .unknown w ↔
      kkField w ∉ [0x07#8, 0x0A#8, 0x15#8, 0x18#8, 0x1E#8, 0x29#8, 0x33#8, 0x55#8, 0x65#8] := by
  unfold decodeGroupF
  repeat' split
  all_goals simp [*]

/-- Settles O4: the decoder's own case split on the high nibble, in which six groups have unknown words, each by its lemma, or, in
groups 0x5 and 0x9, by the check of the low nibble. -/
theorem unknownSpaceByGroup : Obligations.UnknownSpaceByGroup := by
  intro w
  have lt := (opField w).isLt
  have opEq (k : Nibble) : opField w = k ↔ (opField w).toNat = k.toNat := BitVec.toNat_inj.symm
  unfold decode
  split
  case h_1 op => rw [decodeGroup0_eq_unknown_iff (BitVec.eq_of_toNat_eq op)]; simp [opEq, op]
  case h_9 op => rw [decodeGroup8_eq_unknown_iff]; simp [opEq, op]
  case h_15 op => rw [decodeGroupE_eq_unknown_iff]; simp [opEq, op]
  case h_16 =>
    have op : (opField w).toNat = 0xF := by simp only [imp_false] at *; omega
    rw [decodeGroupF_eq_unknown_iff]; simp [opEq, op]
  all_goals next op => simp [opEq, op]

/-- Settles O5: the decoder evaluated on the twelve words. -/
theorem workedWordsDecode : Obligations.WorkedWordsDecode := by
  unfold Obligations.WorkedWordsDecode
  decide

end Sys2Proof
end

section
/-! The effect of an instruction that passes its check, element by element (spec R10 to R22): one table for each element that some
instruction writes, beside `executeCheck` and `directive`. What every instruction does, and leaves unchanged, is read off them. -/

namespace Sys2Proof.Machine

/-! ## What each element becomes -/

/-- `V` after the instruction: the arithmetic of R81 to R92, the flag of `Dxyn`, the loads of `Fx07` and `Fx65`. -/
def regsAfter (i : Instr) (s : State) : Vector Byte 16 :=
  match i with
  | .ldImm x kk => s.V.set x kk
  | .addImm x kk => s.V.set x (s.reg x + kk)
  | .ldReg x y => s.V.set x (s.reg y)
  | .orReg x y => s.V.set x (s.reg x ||| s.reg y)
  | .andReg x y => s.V.set x (s.reg x &&& s.reg y)
  | .xorReg x y => s.V.set x (s.reg x ^^^ s.reg y)
  | .addReg x y => (writeFlagged s x (carryFlag (s.reg x) (s.reg y)) (s.reg x + s.reg y)).V
  | .sub x y => (writeFlagged s x (minuendGreater (s.reg x) (s.reg y)) (s.reg x - s.reg y)).V
  | .shr x _ => (writeFlagged s x (shiftOutRight (s.reg x)) (s.reg x >>> 1)).V
  | .subn x y => (writeFlagged s x (minuendGreater (s.reg y) (s.reg x)) (s.reg y - s.reg x)).V
  | .shl x _ => (writeFlagged s x (shiftOutLeft (s.reg x)) (s.reg x <<< 1)).V
  | .rnd x kk => s.V.set x (Config.draw8 s.draws &&& kk)
  | .drw x y n => s.V.set flagReg (flagByte (drawSprite s (s.reg x) (s.reg y) n.toNat).collision)
  | .ldFromDT x => s.V.set x s.DT
  | .ldRegs x => (loadRegs s x).V
  | _ => s.V

/-- `I` after the instruction (R121 to R123). -/
def indexAfter (i : Instr) (s : State) : Word :=
  match i with
  | .ldI nnn => zextAddr nnn
  | .addI x => s.I + zext16 (s.reg x)
  | .ldFont x => glyphAddr s.params (s.reg x)
  | _ => s.I

/-- `sp` after the instruction (R101, R102). -/
def spAfter (i : Instr) (s : State) : Fin 17 :=
  match i with
  | .call _ => (s.push (s.PC + 2)).sp
  | .ret => s.pop.sp
  | _ => s.sp

/-- The stack's entries after the instruction: a return leaves the entry it pops (R101, R102). -/
def stackAfter (i : Instr) (s : State) : Vector Word 16 :=
  match i with
  | .call _ => (s.push (s.PC + 2)).stack
  | _ => s.stack

/-- `DT` after the instruction (R151). -/
def delayAfter (i : Instr) (s : State) : Byte :=
  match i with
  | .ldDT x => s.reg x
  | _ => s.DT

/-- `ST` after the instruction (R152). -/
def soundAfter (i : Instr) (s : State) : Byte :=
  match i with
  | .ldST x => s.reg x
  | _ => s.ST

/-- Memory after the instruction (R124, R125). -/
def memAfter (i : Instr) (s : State) : Memory :=
  match i with
  | .bcd x => (storeDigits s (s.reg x)).mem
  | .stRegs x => (storeRegs s x).mem
  | _ => s.mem

/-- The framebuffer after the instruction (R141, R142). -/
def screenAfter (i : Instr) (s : State) : Framebuffer :=
  match i with
  | .cls => blankFramebuffer
  | .drw x y n => (drawSprite s (s.reg x) (s.reg y) n.toNat).fb
  | _ => s.FB

/-- The mark of a redraw after the instruction (R141, R142). -/
def redrawAfter (i : Instr) (s : State) : Bool :=
  match i with
  | .cls => true
  | .drw _ _ _ => true
  | _ => s.redrawPending

/-- The run state after the instruction (R153). -/
def runAfter (i : Instr) (s : State) : RunState :=
  match i with
  | .ldKey _ => .awaitingKey
  | _ => s.run

/-- The target of a key-wait after the instruction (R153). -/
def waitRegAfter (i : Instr) (s : State) : Reg :=
  match i with
  | .ldKey x => x
  | _ => s.waitReg

/-- The counter of draws after the instruction (R92, log entry 6). -/
def drawsAfter (i : Instr) (s : State) : Nat :=
  match i with
  | .rnd _ _ => s.draws + 1
  | _ => s.draws

/-- The state after an instruction that passes its check. -/
def effectOf (i : Instr) (s : State) : State :=
  { s with
    V := regsAfter i s
    I := indexAfter i s
    PC := (directive i s).apply s.PC
    sp := spAfter i s
    stack := stackAfter i s
    DT := delayAfter i s
    ST := soundAfter i s
    mem := memAfter i s
    FB := screenAfter i s
    redrawPending := redrawAfter i s
    run := runAfter i s
    waitReg := waitRegAfter i s
    draws := drawsAfter i s }

variable (s : State)

/-! ## The tables are what the model executes -/

theorem skip_eq_directive (c : Bool) : s.skip c = { s with PC := (skipDirective c).apply s.PC } := by cases c <;> rfl

theorem push_eq (v : Word) : s.push v = { s with sp := (s.push v).sp, stack := (s.push v).stack } := by
  unfold State.push
  split <;> rfl

/-- An instruction is its effect, guarded by its execute-stage check (R167). -/
theorem exec_eq_effectOf (i : Instr) : exec i s = guarded (executeCheck i s) s (effectOf i s) := by
  cases i
  case seImm | sneImm | seReg | sneReg => exact congrArg _ (skip_eq_directive s _)
  case skp | sknp => exact congrArg (guarded _ s) (skip_eq_directive s _)
  case call nnn => exact congrArg (fun t => guarded _ s (t.jump (zextAddr nnn))) (push_eq s _)
  case stRegs x => exact congrArg (fun t => guarded _ s t.next) (storeRegs_spec s x).1
  case ldRegs x => exact congrArg (fun t => guarded _ s t.next) (loadRegs_spec s x).1
  all_goals rfl

variable {s} {i : Instr}

theorem exec_of_passes (h : executeCheck i s = .none) : exec i s = .next (effectOf i s) := by
  rw [exec_eq_effectOf, h, guarded_none]

theorem exec_of_fails (h : executeCheck i s ≠ .none) : exec i s = .next (s.raise (executeCheck i s)) := by
  rw [exec_eq_effectOf, guarded_of_ne_none s _ h]

/-- What an instruction can do: it passes its check and has its effect, or fails it and enters the fault (R167, R168). -/
theorem exec_cases {t : State} (h : exec i s = .next t) :
    (executeCheck i s = .none ∧ t = effectOf i s) ∨ (executeCheck i s ≠ .none ∧ t = s.raise (executeCheck i s)) :=
  guarded_cases s (exec_eq_effectOf s i ▸ h)

/-! ## Faults and PC -/

theorem runAfter_eq : runAfter i s = s.run ∨ ∃ x, i = .ldKey x ∧ runAfter i s = .awaitingKey := by
  unfold runAfter
  split
  · exact .inr ⟨_, rfl, rfl⟩
  · exact .inl rfl

/-- Settles O55: a failing check is fault entry, and no effect writes the fault record or makes the core faulted (`runAfter_eq`). -/
theorem faultsArePrecise : Obligations.FaultsArePrecise := by
  intro i s t h
  rcases exec_cases h with ⟨passes, rfl⟩ | ⟨fails, rfl⟩
  · refine ⟨fun fails => absurd passes fails, fun _ => ⟨rfl, fun faulted => ?_⟩⟩
    rcases runAfter_eq (i := i) (s := s) with kept | ⟨x, -, waits⟩
    · exact kept.symm.trans faulted
    · cases waits.symm.trans faulted
  · exact ⟨fun _ => rfl, fun passes => absurd passes fails⟩

/-- Settles O56: PC is in the effect as the directive says, and fault entry leaves it. -/
theorem pcFollowsDirective : Obligations.PcFollowsDirective := by
  intro i s t h
  rcases exec_cases h with ⟨passes, rfl⟩ | ⟨fails, rfl⟩
  · exact ⟨fun _ => rfl, fun fails => absurd passes fails⟩
  · exact ⟨fun passes => absurd passes fails, fun _ => rfl⟩

/-! ## Registers -/

/-- A flag writer leaves every register but its destination and VF. -/
theorem writeFlagged_V_ne {x r : Reg} (flag : Bool) (result : Byte) (hx : r ≠ x) (hf : r ≠ flagReg) :
    (writeFlagged s x flag result).V[r] = s.V[r] := by
  have reads := writeFlagged_reg s x r flag result
  rwa [if_neg hx, if_neg hf] at reads

theorem regsAfter_of_not_mayWrite {r : Reg} (h : mayWrite i r = false) : (regsAfter i s)[r] = s.V[r] := by
  cases i
  case addReg | sub | shr | subn | shl =>
    simp only [mayWrite, Bool.or_eq_false_iff, beq_eq_false_iff_ne] at h
    exact writeFlagged_V_ne _ _ h.1 h.2
  case ldImm | addImm | ldReg | orReg | andReg | xorReg | rnd | ldFromDT | drw =>
    simp only [mayWrite, beq_eq_false_iff_ne] at h
    exact (State.V_set_get ..).trans (if_neg h)
  case ldRegs x =>
    simp only [mayWrite, decide_eq_false_iff_not] at h
    exact ((loadRegs_spec s x).2 r).trans (if_neg h)
  all_goals rfl

/-- Settles O57: the table of the registers (`regsAfter_of_not_mayWrite`); fault entry writes none. -/
theorem registerFrame : Obligations.RegisterFrame := by
  intro i s t r h hr
  rcases exec_cases h with ⟨-, rfl⟩ | ⟨-, rfl⟩
  · exact regsAfter_of_not_mayWrite hr
  · rfl

/-! ## Memory -/

theorem storeDigits_byte_outside (v : Byte) {a : Nat} (h : a < effAddr s 0 ∨ effAddr s 2 < a) :
    (storeDigits s v).byte a = s.byte a := by
  have apart : a ≠ effAddr s 2 ∧ a ≠ effAddr s 1 ∧ a ≠ effAddr s 0 := by
    simp only [effAddr] at *
    omega
  rw [storeDigits_byte, if_neg apart.1, if_neg apart.2.1, if_neg apart.2.2]

theorem storeRegs_params (x : Reg) : (storeRegs s x).params = s.params :=
  (congrArg State.params (storeRegs_spec s x).1 :)

theorem effectOf_stRegs_byte (x : Reg) (a : Nat) : (effectOf (.stRegs x) s).byte a = (storeRegs s x).byte a := by
  have params : (effectOf (.stRegs x) s).params = (storeRegs s x).params := (storeRegs_params (s := s) x).symm
  exact State.byte_congr (s := storeRegs s x) (t := effectOf (.stRegs x) s) rfl params a

theorem effectOf_byte_of_not_storesTo {a : Nat} (h : ¬ storesTo i s a) : (effectOf i s).byte a = s.byte a := by
  cases i
  case bcd x =>
    simp only [storesTo] at h
    exact storeDigits_byte_outside (s.reg x) (by omega)
  case stRegs x =>
    simp only [storesTo] at h
    exact (effectOf_stRegs_byte x a).trans ((storeRegs_spec s x).2.2 a (by omega))
  all_goals rfl

/-- Settles O58: the table of memory (`effectOf_byte_of_not_storesTo`); fault entry stores nothing. -/
theorem memoryFrame : Obligations.MemoryFrame := by
  intro i s t a h ha
  rcases exec_cases h with ⟨-, rfl⟩ | ⟨-, rfl⟩
  · exact effectOf_byte_of_not_storesTo ha
  · rfl

/-! ## The other elements -/

theorem spAfter_stackAfter_eq :
    (spAfter i s = s.sp ∧ stackAfter i s = s.stack) ∨ i = .ret ∨ ∃ nnn, i = .call nnn := by
  cases i
  case ret => exact .inr (.inl rfl)
  case call nnn => exact .inr (.inr ⟨nnn, rfl⟩)
  all_goals exact .inl ⟨rfl, rfl⟩

theorem stackAfter_eq : stackAfter i s = s.stack ∨ ∃ nnn, i = .call nnn := by
  unfold stackAfter
  split <;> simp

theorem delayAfter_eq : delayAfter i s = s.DT ∨ ∃ x, i = .ldDT x := by
  unfold delayAfter
  split <;> simp

theorem soundAfter_eq : soundAfter i s = s.ST ∨ ∃ x, i = .ldST x := by
  unfold soundAfter
  split <;> simp

theorem indexAfter_eq :
    indexAfter i s = s.I ∨ (∃ nnn, i = .ldI nnn) ∨ (∃ x, i = .addI x) ∨ ∃ x, i = .ldFont x := by
  unfold indexAfter
  split <;> simp

theorem screenAfter_redrawAfter_eq :
    (screenAfter i s = s.FB ∧ redrawAfter i s = s.redrawPending) ∨ i = .cls ∨ ∃ x y n, i = .drw x y n := by
  cases i
  case cls => exact .inr (.inl rfl)
  case drw x y n => exact .inr (.inr ⟨x, y, n, rfl⟩)
  all_goals exact .inl ⟨rfl, rfl⟩

theorem waitRegAfter_eq : waitRegAfter i s = s.waitReg ∨ ∃ x, i = .ldKey x := by
  unfold waitRegAfter
  split <;> simp

theorem drawsAfter_eq : drawsAfter i s = s.draws ∨ ∃ x kk, i = .rnd x kk := by
  unfold drawsAfter
  split <;> simp

/-- Settles O59: the table of each element; the latch, the warning, the parameters and the record of moves have none, and fault
entry writes no element of them. -/
theorem specialStateFrame : Obligations.SpecialStateFrame := by
  intro i s t h
  rcases exec_cases h with ⟨-, rfl⟩ | ⟨-, rfl⟩
  · exact ⟨spAfter_stackAfter_eq, stackAfter_eq, delayAfter_eq, soundAfter_eq, indexAfter_eq, screenAfter_redrawAfter_eq,
      waitRegAfter_eq, drawsAfter_eq, rfl, rfl, rfl, rfl, rfl, rfl, rfl⟩
  · exact ⟨.inl ⟨rfl, rfl⟩, .inl rfl, .inl rfl, .inl rfl, .inl rfl, .inl ⟨rfl, rfl⟩, .inl rfl, .inl rfl, rfl, rfl, rfl, rfl, rfl,
      rfl, rfl⟩

end Sys2Proof.Machine
end

section
/-! The invariant of the machine (spec R13, R20, R22, R101, R168): it holds at reset, and every transition keeps it. -/

namespace Sys2Proof.Machine

variable {s t : State} {i : Instr}

/-! ## Bounds on words -/

theorem toNat_add_two_of_fetched {pc : Word} (h : pc.toNat ≤ 4094) : (pc + 2).toNat = pc.toNat + 2 := by bv_omega

theorem toNat_add_four_of_fetched {pc : Word} (h : pc.toNat ≤ 4094) : (pc + 4).toNat = pc.toNat + 4 := by bv_omega

theorem toNat_zextAddr (nnn : Addr12) : (zextAddr nnn).toNat = nnn.toNat := BitVec.toNat_setWidth_of_le (by decide)

/-- The target of `Bnnn` is the sum itself, which sixteen bits always hold (R103). -/
theorem toNat_zextAddr_add_zext16 (nnn : Addr12) (v : Byte) : (zextAddr nnn + zext16 v).toNat = nnn.toNat + v.toNat := by
  have := nnn.isLt
  have := v.isLt
  rw [BitVec.toNat_add, toNat_zextAddr, BitVec.toNat_setWidth_of_le (by decide)]
  omega

/-! ## States in which the invariant holds -/

/-- The invariant speaks of memory, PC, the stack, the run state and the fault record only. -/
theorem Inv.of_eq (h : Inv s)
    (e : t = { s with
      V := t.V, I := t.I, DT := t.DT, ST := t.ST, FB := t.FB, keys := t.keys, waitReg := t.waitReg
      redrawPending := t.redrawPending, warn := t.warn, warnWord := t.warnWord, warnPC := t.warnPC, draws := t.draws
      schedule := t.schedule, later := t.later }) : Inv t := by
  rw [e]
  exact ⟨h.memWf, h.pcBound, h.waitFetched, h.stackBound, h.faultRecorded, h.faultPC⟩

/-- In a core that is not faulted the fault record says so (R22). -/
theorem Inv.fault_eq_none (h : Inv s) (hr : s.run ≠ .faulted) : s.fault = .none :=
  by_contra fun recorded => hr (h.faultRecorded.2 recorded)

/-- The invariant of a core that is not faulted. -/
theorem Inv.of_not_faulted (memWf : Memory.wf t.params t.mem = true) (pcBound : t.PC.toNat ≤ 0x10FE)
    (waitFetched : t.run = .awaitingKey → t.PC.toNat ≤ Config.fetchMax)
    (stackBound : ∀ j : Fin 16, j.val < t.sp.val → t.stack[j].toNat ≤ Config.memSize)
    (hr : t.run ≠ .faulted) (hf : t.fault = .none) : Inv t :=
  ⟨memWf, pcBound, waitFetched, stackBound, by simp [hr, hf], by simp [hf, FaultRecord.pc?]⟩

/-- Fault entry keeps the invariant when the record names the PC (R168). -/
theorem Inv.raise (h : Inv s) {f : FaultRecord} (hf : f ≠ .none) (hpc : ∀ pc, f.pc? = some pc → pc = s.PC) :
    Inv (s.raise f) :=
  ⟨h.memWf, h.pcBound, nofun, h.stackBound, ⟨fun _ => hf, fun _ => rfl⟩, hpc⟩

/-- Settles O53: at reset memory and the stack hold nothing, and the core runs from 0x200 with no fault recorded. -/
theorem invariantHoldsAtReset : Obligations.InvariantHoldsAtReset :=
  Inv.of_not_faulted rfl (by decide) nofun (fun _ below => absurd below (Nat.not_lt_zero _)) nofun rfl

/-! ## An instruction -/

/-- A failing check records the PC of the instruction (R160). -/
theorem eq_of_executeCheck_pc {pc : Word} (h : (executeCheck i s).pc? = some pc) : pc = s.PC := by
  cases i
  case call | ret | drw | bcd | stRegs | ldRegs | skp | sknp =>
    simp only [executeCheck, callCheck, retCheck, spanCheck, keyCheck] at h
    split at h
    · cases h; rfl
    · cases h
  all_goals cases h

/-- The entry that a return pops is at most 4096 (R101). -/
theorem Inv.top_le (h : Inv s) (hs : s.sp.val ≠ 0) : s.top.toNat ≤ 4096 := by
  have room := s.sp.isLt
  exact h.stackBound ⟨s.sp.val - 1, by omega⟩ (by show s.sp.val - 1 < s.sp.val; omega)

/-- The bound of R13: `Bnnn` reaches it with the address 0xFFF and 0xFF in V0. -/
theorem Inv.directive_le (h : Inv s) (hp : s.PC.toNat ≤ 4094) (passes : executeCheck i s = .none) :
    ((directive i s).apply s.PC).toNat ≤ 0x10FE := by
  have plus2 := toNat_add_two_of_fetched hp
  have plus4 := toNat_add_four_of_fetched hp
  have skips (c : Bool) : ((skipDirective c).apply s.PC).toNat ≤ 0x10FE := by
    cases c
    · exact plus2.trans_le (by omega)
    · exact plus4.trans_le (by omega)
  cases i
  case jp nnn | call nnn => exact (toNat_zextAddr nnn).trans_le (by have := nnn.isLt; omega)
  case ret => exact (h.top_le ((retCheck_eq_none s).1 passes)).trans (by decide)
  case jpV0 nnn =>
    have := nnn.isLt
    have := (s.reg 0).isLt
    exact (toNat_zextAddr_add_zext16 nnn (s.reg 0)).trans_le (by omega)
  case seImm | sneImm | seReg | sneReg | skp | sknp => exact skips _
  case ldKey => exact h.pcBound
  all_goals exact plus2.trans_le (by omega)

/-- Return addresses stay bounded: a call from a fetched instruction pushes at most 4096 (R101). -/
theorem Inv.stackAfter_le (h : Inv s) (hp : s.PC.toNat ≤ 4094) (j : Fin 16) (below : j.val < (spAfter i s).val) :
    (stackAfter i s)[j].toNat ≤ Config.memSize := by
  cases i
  case call nnn =>
    by_cases room : s.sp.val < 16
    · simp only [spAfter, stackAfter, State.push_of_room s _ room] at below ⊢
      by_cases new : s.sp.val = j.val
      · simp only [Fin.getElem_fin, ← new, Vector.getElem_set_self]
        exact (toNat_add_two_of_fetched hp).trans_le (by simp only [Config.memSize]; omega)
      · simp only [Fin.getElem_fin, Vector.getElem_set_ne _ _ new]
        exact h.stackBound j (by omega)
    · simp only [spAfter, stackAfter, State.push_of_full s _ room] at below ⊢
      exact h.stackBound j below
  case ret =>
    simp only [spAfter, State.pop_sp_val] at below
    exact h.stackBound j (by omega)
  all_goals exact h.stackBound j below

/-- Consecutive stores inside memory keep the canonical form. -/
theorem wf_storeList (l : List Reg) (inside : ∀ i ∈ l, effAddr s i.val ≤ 4095) (h : Memory.wf s.params s.mem = true) :
    Memory.wf s.params (l.foldl (fun t i => t.writeByte (effAddr t i.val) (t.reg i)) s).mem = true := by
  induction l generalizing s with
  | nil => exact h
  | cons i l ih =>
    have first := inside i List.mem_cons_self
    exact ih (s := s.writeByte (effAddr s i.val) (s.reg i)) (fun j hj => inside j (List.mem_cons_of_mem _ hj))
      (Memory.wf_write s.params _ _ (by omega) h)

theorem wf_storeDigits (v : Byte) (inside : effAddr s 2 ≤ 4095) (h : Memory.wf s.params s.mem = true) :
    Memory.wf s.params (storeDigits s v).mem = true := by
  simp only [effAddr] at inside
  exact Memory.wf_write _ _ _ (by simp only [effAddr]; omega)
    (Memory.wf_write _ _ _ (by simp only [effAddr]; omega) (Memory.wf_write _ _ _ (by simp only [effAddr]; omega) h))

theorem Inv.memAfter_wf (h : Inv s) (passes : executeCheck i s = .none) : Memory.wf s.params (memAfter i s) = true := by
  cases i
  case bcd x =>
    rcases (spanCheck_eq_none s 3).1 passes with none | inside
    · cases none
    · exact wf_storeDigits (s.reg x) inside h.memWf
  case stRegs x =>
    rcases (spanCheck_eq_none s (x.val + 1)).1 passes with none | inside
    · cases none
    · refine wf_storeList (regsUpTo x) (fun i hi => ?_) h.memWf
      have : i.val ≤ x.val := (mem_regsUpTo x i).1 hi
      simp only [effAddr] at inside ⊢
      omega
  all_goals exact h.memWf

theorem Inv.effectOf (h : Inv s) (running : s.run = .running) (hp : s.PC.toNat ≤ 4094)
    (passes : executeCheck i s = .none) : Inv (effectOf i s) := by
  have noFault : s.fault = .none := h.fault_eq_none (by simp [running])
  refine Inv.of_not_faulted (h.memAfter_wf passes) (h.directive_le hp passes) ?_ (h.stackAfter_le hp) ?_ noFault
  · show runAfter i s = .awaitingKey → _
    rcases runAfter_eq (i := i) (s := s) with kept | ⟨x, rfl, -⟩
    · simp [kept, running]
    · exact fun _ => hp
  · show runAfter i s ≠ .faulted
    rcases runAfter_eq (i := i) (s := s) with kept | ⟨x, -, waits⟩
    · simp [kept, running]
    · simp [waits]

theorem Inv.exec (h : Inv s) (running : s.run = .running) (hp : s.PC.toNat ≤ 4094) (he : exec i s = .next t) : Inv t := by
  rcases exec_cases he with ⟨passes, rfl⟩ | ⟨fails, rfl⟩
  · exact h.effectOf running hp passes
  · exact h.raise fails fun _ => eq_of_executeCheck_pc

/-! ## A transition -/

theorem Inv.warnUnknown (h : Inv s) (w : Word) (running : s.run = .running) (hp : s.PC.toNat ≤ 4094) :
    Inv (s.warnUnknown w) :=
  Inv.of_not_faulted h.memWf ((toNat_add_two_of_fetched hp).trans_le (by omega)) (by simp [running]) h.stackBound
    (by simp [running]) (h.fault_eq_none (by simp [running]))

theorem Inv.cycle (h : Inv s) (hc : cycle s = .next t) : Inv t := by
  by_cases running : s.run = .running
  · rcases cycle_cases s running hc with ⟨-, rfl⟩ | ⟨hp, w, -, rfl⟩ | ⟨hp, i, -, he⟩
    · exact h.raise nofun fun pc e => (Option.some.inj e).symm
    · exact h.warnUnknown w running hp
    · exact h.exec running hp he
  · rw [cycle_of_not_running s running] at hc
    cases hc
    exact h

theorem Inv.keyDown (h : Inv s) (k : Key) : Inv (keyDown k s) := by
  by_cases waiting : s.run = .awaitingKey
  · have hp : s.PC.toNat ≤ 4094 := h.waitFetched waiting
    rw [keyDown_of_awaitingKey s k waiting]
    exact Inv.of_not_faulted h.memWf ((toNat_add_two_of_fetched hp).trans_le (by omega)) nofun h.stackBound nofun
      (h.fault_eq_none (by simp [waiting]))
  · rw [keyDown_of_not_awaitingKey s k waiting]
    exact h.of_eq rfl

theorem Inv.resetMachine (h : Inv s) : Inv (resetMachine s) :=
  Inv.of_not_faulted (Memory.wf_restoreFont s.params h.memWf) (by change 0x200 ≤ 0x10FE; decide) nofun
    (fun _ below => absurd below (Nat.not_lt_zero _)) nofun rfl

theorem Inv.loadProgram {bytes : List Byte} (h : Inv s) (hl : loadProgram bytes s = .next t) : Inv t := by
  obtain ⟨fits, rfl⟩ := loadProgram_cases s hl
  simp only [Config.progMax] at fits
  exact ⟨Memory.wf_writeList _ _ _ (by simp only [Config.progBase]; omega) h.memWf, h.pcBound, h.waitFetched, h.stackBound,
    h.faultRecorded, h.faultPC⟩

theorem Inv.fire {m : Transition} (h : Inv s) (hf : fire m s = .next t) : Inv t := by
  cases m with
  | step => exact h.cycle hf
  | keyDown k => cases hf; exact h.keyDown k
  | reset => cases hf; exact h.resetMachine
  | loadProgram bytes => exact h.loadProgram hf
  | tick60 | keyUp => cases hf; exact h.of_eq rfl
  | deliver =>
    cases hf
    unfold deliver
    split
    · exact h.of_eq rfl
    · exact h

/-- Settles O54: a step takes a transition off the record of moves, of which the invariant does not speak (`Inv.of_eq`), and fires
it (`Inv.fire`). -/
theorem stepKeepsMachineInvariant : Obligations.StepKeepsMachineInvariant := by
  intro s t h hs
  obtain ⟨l, w, moved⟩ := nextMoveFrom_eq s Config.agentMove
  have taken : Inv (nextMove s).2 := h.of_eq (by rw [nextMove, moved])
  exact taken.fire hs

end Sys2Proof.Machine
end

section
/-! One step (spec R8, R42, R165 to R168): what `Step()` fetches and runs, what it reports, where the model stops, and what a faulted
core still does. -/

namespace Sys2Proof.Machine

/-! ## The instruction that is fetched -/

theorem decode_of_decodeBytes_ok {hi lo : Byte} {i : Instr} (h : decodeBytes [hi, lo] = .ok (i, [])) :
    decode (wordOfBytes hi lo) = .instr i := by
  simp only [decodeBytes] at h
  split at h
  · next hd => cases h; exact hd
  · cases h

theorem decode_of_decodeBytes_unknown {hi lo : Byte} {w : Word}
    (h : decodeBytes [hi, lo] = .error (.unknownInstruction w)) : decode (wordOfBytes hi lo) = .unknown w := by
  simp only [decodeBytes] at h
  split at h
  · cases h
  · next hd => cases h; exact hd

variable {s : State} {i : Instr}

theorem cycle_of_instr (running : s.run = .running) (hp : s.PC.toNat ≤ 4094) (hd : decode (fetchWord s) = .instr i) :
    cycle s = exec i s := by
  rw [cycle_of_fetched s running hp, hd, execDecoded]

theorem cycle_of_unknown {w : Word} (running : s.run = .running) (hp : s.PC.toNat ≤ 4094)
    (hd : decode (fetchWord s) = .unknown w) : cycle s = .next (s.warnUnknown w) := by
  rw [cycle_of_fetched s running hp, hd, execDecoded]

/-- A step that fires `Step()` runs the instruction at PC, whatever the record of moves: the fetch does not read it. -/
theorem step_of_instr (running : s.run = .running) (hp : s.PC.toNat ≤ 4094) (hd : decode (fetchWord s) = .instr i)
    (fires : (nextMove s).1 = .step) : step s = exec i (nextMove s).2 := by
  obtain ⟨l, w, moved⟩ := nextMoveFrom_eq s Config.agentMove
  rw [step_eq_fire, fires, nextMove, moved]
  exact cycle_of_instr (s := { s with schedule := l, later := w }) running hp hd

/-- Settles O6: the step fires `Step()` (`nextMoveFrom_of_quiet`, `nextMoveFrom_of_scheduled`), which runs the decoded instruction
(`step_of_instr`). -/
theorem stepRunsDecodedInstruction : Obligations.StepRunsDecodedInstruction := by
  intro s i running hp h
  have runs := step_of_instr running hp (decode_of_decodeBytes_ok h)
  refine ⟨fun quiet later => ?_, fun rest scheduled => ?_, runs⟩
  · simpa only [nextMove, nextMoveFrom_of_quiet s _ quiet later, forall_const] using runs
  · simpa only [nextMove, nextMoveFrom_of_scheduled s _ scheduled, forall_const] using runs

/-- Settles O12: the step is the jump (`cycle_of_instr`), and a jump to where PC stands changes nothing (`jump_self`). -/
theorem idleLoopStands : Obligations.IdleLoopStands := by
  rintro s ⟨running, fetches, nnn, hd, here⟩
  have jumps : fire .step s = exec (.jp nnn) s := cycle_of_instr running ((canFetch_iff s).1 fetches) hd
  rw [jumps, exec_jp, jump_self s here.symm]

/-! ## What a `Step()` reports -/

theorem stepOutcome_of_instr (running : s.run = .running) (hp : s.PC.toNat ≤ 4094)
    (hd : decode (fetchWord s) = .instr i) : stepOutcome s = instrOutcome i s := by
  simp [stepOutcome, running, (canFetch_iff s).2 hp, hd]

theorem stepOutcome_of_unknown {w : Word} (running : s.run = .running) (hp : s.PC.toNat ≤ 4094)
    (hd : decode (fetchWord s) = .unknown w) : stepOutcome s = .warning w s.PC := by
  simp [stepOutcome, running, (canFetch_iff s).2 hp, hd]

theorem stepOutcome_of_past (running : s.run = .running) (hp : s.PC.toNat > 4094) :
    stepOutcome s = .faulted (fetchFault s) := by
  have past : ¬ canFetch s = true := by rw [canFetch_iff]; omega
  simp [stepOutcome, running, past]

theorem stepOutcome_of_faulted (h : s.run = .faulted) : stepOutcome s = .faulted s.fault := by simp [stepOutcome, h]

/-- Settles O7: the two bytes decode to the unknown word, which the step warns of (`cycle_of_unknown`) and reports. -/
theorem unknownWordWarnsAndAdvances : Obligations.UnknownWordWarnsAndAdvances := by
  intro s w running hp h
  have hd : decode (fetchWord s) = .unknown w := decode_of_decodeBytes_unknown h
  exact ⟨cycle_of_unknown running hp hd, stepOutcome_of_unknown running hp hd⟩

/-- Settles O8: fault entry at the fetch (`cycle_of_past`), and its report. -/
theorem fetchPastMemoryFaults : Obligations.FetchPastMemoryFaults :=
  fun s running hp => ⟨cycle_of_past s running hp, stepOutcome_of_past running hp⟩

/-- What an instruction reports, beside what it does. -/
theorem instrOutcome_cases {t : State} (running : s.run = .running) (he : exec i s = .next t) :
    (∃ f, instrOutcome i s = .faulted f ∧ t = s.raise f) ∨
    (∃ d, instrOutcome i s = .ok d ∧ t.PC = d.apply s.PC ∧ t.run = .running) ∨
    (instrOutcome i s = .hold ∧ t.run = .awaitingKey ∧ t.PC = s.PC) := by
  rcases exec_cases he with ⟨passes, rfl⟩ | ⟨fails, rfl⟩
  · by_cases hold : directive i s = .hold
    · obtain ⟨x, rfl⟩ := (directive_hold_iff s).1 hold
      exact .inr (.inr ⟨instrOutcome_of_hold s passes hold, rfl, rfl⟩)
    · refine .inr (.inl ⟨_, instrOutcome_of_ok s passes hold, rfl, ?_⟩)
      rcases runAfter_eq (i := i) (s := s) with kept | ⟨x, rfl, -⟩
      · exact kept.trans running
      · exact absurd rfl hold
  · exact .inl ⟨_, instrOutcome_of_fault s fails, rfl⟩

/-- What a running core's `Step()` reports, beside what it does: a fault, a warning, a directive or a hold (R8). -/
theorem stepOutcome_cases {t : State} (running : s.run = .running) (h : cycle s = .next t) :
    (∃ f, stepOutcome s = .faulted f ∧ t = s.raise f) ∨
    (∃ w, stepOutcome s = .warning w s.PC ∧ t = s.warnUnknown w) ∨
    (∃ d, stepOutcome s = .ok d ∧ t.PC = d.apply s.PC ∧ t.run = .running) ∨
    (stepOutcome s = .hold ∧ t.run = .awaitingKey ∧ t.PC = s.PC) := by
  rcases cycle_cases s running h with ⟨hp, e⟩ | ⟨hp, w, hd, e⟩ | ⟨hp, i, hd, he⟩
  · exact .inl ⟨_, stepOutcome_of_past running hp, e⟩
  · exact .inr (.inl ⟨w, stepOutcome_of_unknown running hp hd, e⟩)
  · rw [stepOutcome_of_instr running hp hd]
    exact (instrOutcome_cases running he).imp_right .inr

/-- Settles O11: the four outcomes of `stepOutcome_cases`, of which each excludes the others. -/
theorem outcomesAreRecorded : Obligations.OutcomesAreRecorded := by
  intro s t running h
  rcases stepOutcome_cases running h with ⟨f, o, rfl⟩ | ⟨w, o, rfl⟩ | ⟨d, o, hpc, hrun⟩ | ⟨o, hrun, hpc⟩
  · simp [o]
  · simp [o, running]
  · simp [o, hpc, hrun]
  · simp [o, hpc, hrun]

/-! ## Where the model stops -/

theorem exists_exec_next (i : Instr) (s : State) : ∃ t, exec i s = .next t := by
  by_cases passes : executeCheck i s = .none
  · exact ⟨_, exec_of_passes passes⟩
  · exact ⟨_, exec_of_fails passes⟩

theorem exists_cycle_next (s : State) : ∃ t, cycle s = .next t := by
  by_cases running : s.run = .running
  · by_cases hp : s.PC.toNat ≤ 4094
    · cases hd : decode (fetchWord s) with
      | instr i => rw [cycle_of_instr running hp hd]; exact exists_exec_next i s
      | unknown w => exact ⟨_, cycle_of_unknown running hp hd⟩
    · exact ⟨_, cycle_of_past s running (by omega)⟩
  · exact ⟨_, cycle_of_not_running s running⟩

/-- A transition answers a next state, or it is the load of an image of more than 3584 bytes (R166). -/
theorem fire_next_or_oversized (m : Transition) (s : State) :
    (∃ t, fire m s = .next t) ∨
      ∃ bytes, m = .loadProgram bytes ∧ bytes.length > 3584 ∧ fire m s = .fault (.imageTooLarge bytes.length) := by
  cases m with
  | step => exact .inl (exists_cycle_next s)
  | loadProgram bytes =>
    by_cases large : bytes.length > 3584
    · exact .inr ⟨bytes, rfl, large, if_pos large⟩
    · exact .inl ⟨_, if_neg large⟩
  | tick60 | keyDown | keyUp | deliver | reset => exact .inl ⟨_, rfl⟩

/-- Settles O13: every instruction passes its check or fails it (`exists_exec_next`), and of the transitions only an oversized load
stops (`fire_next_or_oversized`). -/
theorem onlyOversizedLoadStops : Obligations.OnlyOversizedLoadStops := by
  refine ⟨exists_exec_next, fun s f h => ?_, fun s r h => ?_⟩ <;> rw [step_eq_fire] at h
  · rcases fire_next_or_oversized (nextMove s).1 (nextMove s).2 with ⟨t, e⟩ | ⟨bytes, loads, large, e⟩
    · cases e.symm.trans h
    · exact ⟨bytes, loads, large, (Host.Outcome.fault.inj (e.symm.trans h)).symm⟩
  · rcases fire_next_or_oversized (nextMove s).1 (nextMove s).2 with ⟨t, e⟩ | ⟨bytes, -, -, e⟩
    · cases e.symm.trans h
    · cases e.symm.trans h

/-! ## A faulted core -/

/-- What the transitions but `Reset()` can do to a faulted core (R168, R169). -/
theorem fire_of_faulted {m : Transition} {u : State} (faulted : s.run = .faulted) (h : fire m s = .next u)
    (noReset : m ≠ .reset) :
    u = { s with DT := u.DT, ST := u.ST, keys := u.keys, redrawPending := u.redrawPending, mem := u.mem } ∧
      ((∀ bytes, m ≠ .loadProgram bytes) → u.mem = s.mem) := by
  cases m with
  | reset => exact absurd rfl noReset
  | step =>
    obtain rfl : s = u := Host.Outcome.next.inj ((cycle_of_faulted s faulted).symm.trans h)
    exact ⟨rfl, fun _ => rfl⟩
  | keyDown k =>
    cases h
    rw [keyDown_of_not_awaitingKey s k (by simp [faulted])]
    exact ⟨rfl, fun _ => rfl⟩
  | tick60 | keyUp => cases h; exact ⟨rfl, fun _ => rfl⟩
  | deliver =>
    cases h
    unfold deliver
    split <;> exact ⟨rfl, fun _ => rfl⟩
  | loadProgram bytes =>
    obtain ⟨-, rfl⟩ := loadProgram_cases s h
    exact ⟨rfl, fun noLoad => absurd rfl (noLoad bytes)⟩

/-- Settles O10: `Step()` and its report (`cycle_of_faulted`, `stepOutcome_of_faulted`), the other transitions
(`fire_of_faulted`), and `Reset()`. -/
theorem faultedCoreStaysFaulted : Obligations.FaultedCoreStaysFaulted := by
  refine fun s faulted => ⟨cycle_of_faulted s faulted, stepOutcome_of_faulted faulted,
    fun m u => fire_of_faulted faulted, fun bytes u h => ?_, _, rfl, rfl, rfl⟩
  obtain ⟨-, rfl⟩ := loadProgram_cases s h
  rfl

end Sys2Proof.Machine
end

section
/-! Memory as data, and how it comes to hold a program (spec R17, R40, R190 to R193): the canonical form is unique, and `Reset()` and
`LoadProgram` write regions that have no byte in common. -/

namespace Sys2Proof.Machine

namespace Memory

variable {p : Params} {m m' : Memory} {a : Nat} {v : Byte}

/-! ## The canonical form is unique -/

theorem mem_of_find? (h : find? a m = some v) : (a, v) ∈ m := by
  induction m with
  | nil => cases h
  | cons c rest ih =>
    obtain ⟨b, w⟩ := c
    rw [find?_cons] at h
    split at h
    · next here => cases h; exact here ▸ List.mem_cons_self
    · exact List.mem_cons_of_mem _ (ih h)

theorem find?_of_mem (rising : m.Pairwise fun c d => c.1 < d.1) (h : (a, v) ∈ m) : find? a m = some v := by
  induction m with
  | nil => cases h
  | cons c rest ih =>
    obtain ⟨b, w⟩ := c
    obtain ⟨first, rising⟩ := List.pairwise_cons.1 rising
    rw [find?_cons]
    rcases List.mem_cons.1 h with here | later
    · cases here; exact if_pos rfl
    · have lt : b < a := first _ later
      rw [if_neg (by omega), ih rising later]

theorem find?_iff_mem (h : wf p m = true) : find? a m = some v ↔ (a, v) ∈ m :=
  ⟨mem_of_find?, find?_of_mem ((wf_iff p m).1 h).1⟩

/-- Two canonical memories with the same entries are equal: both are listed by rising address. -/
theorem eq_of_mem_iff (h : wf p m = true) (h' : wf p m' = true) (same : ∀ c, c ∈ m ↔ c ∈ m') : m = m' :=
  have : Std.Irrefl fun c d : Host.Cell => c.1 < d.1 := ⟨fun c => Nat.lt_irrefl c.1⟩
  List.Pairwise.eq_of_mem_iff ((wf_iff p m).1 h).1 ((wf_iff p m').1 h').1 same

/-- An unlisted byte can read as another value than a listed one: it is the fontset's, or it is free (R197). -/
theorem exists_unlistedByte_ne (h : knownByte p a ≠ some v) : ∃ init, unlistedByte init p a ≠ v := by
  cases known : knownByte p a with
  | some w =>
    refine ⟨fun _ => 0, fun reads => h ?_⟩
    rw [unlistedByte, known] at reads
    rw [known, show w = v from reads]
  | none =>
    refine ⟨fun _ => v + 1, ?_⟩
    rw [unlistedByte, known]
    show v + 1 ≠ v
    bv_omega

/-- An address that reads as a byte, whatever the bytes never written hold, lists it, unless the byte is known unlisted. -/
theorem find?_of_readFrom (h : knownByte p a ≠ some v) (reads : ∀ init, readFrom init p m a = v) : find? a m = some v := by
  cases found : find? a m with
  | some w =>
    have here := reads fun _ => 0
    rw [readFrom, found] at here
    exact congrArg some here
  | none =>
    obtain ⟨init, differs⟩ := exists_unlistedByte_ne h
    have here := reads init
    rw [readFrom, found] at here
    exact absurd here differs

/-- Every entry of a canonical memory is an entry of one that reads alike. -/
theorem mem_of_readFrom_eq (h : wf p m = true)
    (alike : ∀ init, ∀ a < 4096, readFrom init p m a = readFrom init p m' a) {c : Host.Cell} (hc : c ∈ m) : c ∈ m' := by
  obtain ⟨inside, notKnown⟩ := ((wf_iff p m).1 h).2 c hc
  refine mem_of_find? (find?_of_readFrom notKnown fun init => ?_)
  rw [← alike init c.1 inside, readFrom, (find?_iff_mem h).2 hc, Option.getD_some]

end Memory

/-- Settles O46: two canonical memories that read alike have the same entries (`Memory.mem_of_readFrom_eq`), listed in the same order
(`Memory.eq_of_mem_iff`). -/
theorem canonicalMemoryIsUnique : Obligations.CanonicalMemoryIsUnique := fun _ _ _ h h' alike =>
  Memory.eq_of_mem_iff h h' fun _ =>
    ⟨Memory.mem_of_readFrom_eq h alike, Memory.mem_of_readFrom_eq h' fun init a ha => (alike init a ha).symm⟩

/-! ## Reset and load -/

variable (s : State)

theorem inFont_iff (p : Params) (a : Nat) :
    inFont p a = true ↔ p.fontBase.val ≤ a ∧ a < p.fontBase.val + 80 := by
  rw [inFont, Bool.and_eq_true, decide_eq_true_iff, decide_eq_true_iff, Config.fontBytes]

theorem resetMachine_byte (a : Nat) :
    (resetMachine s).byte a = if inFont s.params a then fontByte s.params (a - s.params.fontBase.val) else s.byte a :=
  Memory.read_restoreFont s.params s.mem a

theorem resetMachine_byte_font {j : Nat} (hj : j < 80) :
    (resetMachine s).byte (s.params.fontBase.val + j) = fontByte s.params j := by
  rw [resetMachine_byte, if_pos ((inFont_iff ..).2 (by omega)), Nat.add_sub_cancel_left]

theorem resetMachine_byte_outside {a : Nat} (h : a < s.params.fontBase.val ∨ s.params.fontBase.val + 80 ≤ a) :
    (resetMachine s).byte a = s.byte a := by
  rw [resetMachine_byte, if_neg (by rw [inFont_iff]; omega)]

/-- The state after a load of an image that fits (R191). -/
def loaded (bytes : List Byte) : State := { s with mem := Memory.writeList s.params s.mem 0x200 bytes }

variable (bytes : List Byte)

theorem fire_loadProgram_of_fits (h : bytes.length ≤ 3584) : fire (.loadProgram bytes) s = .next (loaded s bytes) :=
  if_neg (by simp only [Config.progMax]; omega)

theorem loaded_byte (a : Nat) :
    (loaded s bytes).byte a =
      if h : 0x200 ≤ a ∧ a < 0x200 + bytes.length then bytes[a - 0x200]'(by omega) else s.byte a :=
  Memory.read_writeList s.params s.mem 0x200 a bytes

theorem loaded_byte_image {j : Nat} (h : j < bytes.length) : (loaded s bytes).byte (0x200 + j) = bytes[j] := by
  rw [loaded_byte, dif_pos (by omega)]
  simp only [Nat.add_sub_cancel_left]

theorem loaded_byte_outside {a : Nat} (h : a < 0x200 ∨ 0x200 + bytes.length ≤ a) : (loaded s bytes).byte a = s.byte a := by
  rw [loaded_byte, dif_neg (by omega)]

/-- Settles O17: an image that fits is written (`fire_loadProgram_of_fits`), and its bytes are those of `loaded_byte`. -/
theorem loadProgramCopiesImage : Obligations.LoadProgramCopiesImage := fun s bytes =>
  ⟨fun fits => ⟨_, fire_loadProgram_of_fits s bytes fits, rfl, fun _ => loaded_byte_image s bytes,
    fun _ => loaded_byte_outside s bytes⟩, fun large => if_pos large⟩

/-- Settles O15: the registers are those of `resetMachine`; the fontset and the other bytes by `resetMachine_byte`. -/
theorem resetFromAnyState : Obligations.ResetFromAnyState := fun s =>
  ⟨resetMachine s, rfl, rfl, fun _ => resetMachine_byte_font s, fun _ => resetMachine_byte_outside s⟩

/-- The font region ends where an image begins, so that reset and load commute (R4, R192). -/
theorem resetMachine_loaded_byte (a : Nat) :
    (resetMachine (loaded s bytes)).byte a = (loaded (resetMachine s) bytes).byte a := by
  rw [resetMachine_byte, loaded_byte (resetMachine s)]
  show (if inFont s.params a then fontByte s.params (a - s.params.fontBase.val) else (loaded s bytes).byte a) = _
  by_cases font : inFont s.params a = true
  · have below := lt_progBase_of_inFont s.params font
    rw [if_pos font, dif_neg (by omega), resetMachine_byte, if_pos font]
  · rw [if_neg font, loaded_byte, resetMachine_byte, if_neg font]

/-- Settles O16: the two orders leave the same registers at once and the same bytes by `resetMachine_loaded_byte`, namely the
image, the fontset, and every other byte as it was. -/
theorem launchStateInEitherOrder : Obligations.LaunchStateInEitherOrder := by
  intro s bytes fits
  refine ⟨resetMachine s, loaded (resetMachine s) bytes, loaded s bytes, resetMachine (loaded s bytes), rfl,
    fire_loadProgram_of_fits _ bytes fits, fire_loadProgram_of_fits s bytes fits, rfl, rfl, rfl,
    resetMachine_loaded_byte s bytes, fun _ => loaded_byte_image _ bytes, fun j hj => ?_, fun a noFont noImage => ?_⟩
  · have base := s.params.fontBase.isLt
    exact (loaded_byte_outside _ bytes (by omega)).trans (resetMachine_byte_font s hj)
  · exact (loaded_byte_outside _ bytes noImage).trans (resetMachine_byte_outside s noFont)

/-! ## The reset state -/

theorem blankFramebuffer_cell (s : State) (h : s.FB = blankFramebuffer) (px : Fin 64) (py : Fin 32) : s.cell px py = false := by
  rw [State.cell, h, blankFramebuffer_get]

/-- Memory lists nothing at reset: in the font region it reads as the fontset, elsewhere as the free value (R25, R197). -/
theorem reset_byte_of_not_font {a : Nat} (h : 80 ≤ a) : State.reset.byte a = Config.memInit a := by
  have noFont : inFont defaultParams a = false := by
    rw [← Bool.not_eq_true, inFont_iff]
    show ¬ (0 ≤ a ∧ a < 0 + 80)
    omega
  show unlistedByte Config.memInit defaultParams a = _
  rw [unlistedByte, knownByte, noFont]
  rfl

theorem reset_byte_of_font {a : Nat} (h : a < 80) : State.reset.byte a = fontByte defaultParams a := by
  have font : inFont defaultParams a = true := (inFont_iff ..).2 ⟨Nat.zero_le a, (Nat.zero_add 80).symm ▸ h⟩
  exact Memory.read_of_unlisted_font defaultParams [] rfl font

/-- Settles O14: memory is that of `reset_byte_of_font` and `reset_byte_of_not_font`; every other element stands in the reset state. -/
theorem resetStateValues : Obligations.ResetStateValues := by
  have zero (n : Nat) {α : Type} (v : α) (j : Fin n) : (Vector.replicate n v)[j] = v := by simp
  refine ⟨zero 16 0#8, rfl, rfl, rfl, zero 16 0#16, rfl, rfl, blankFramebuffer_cell _ rfl, rfl, rfl, rfl, rfl, rfl, rfl, rfl,
    zero 16 false, rfl, rfl, rfl, rfl, ?_, fun a => reset_byte_of_not_font⟩
  have font : (List.range 80).map State.reset.byte = (List.range 80).map (fontByte defaultParams) :=
    List.map_congr_left fun a ha => reset_byte_of_font (List.mem_range.1 ha)
  rw [font]
  decide

/-! ## Key-down and delivery -/

/-- Settles O19: a key-down of a core that waits, and of one that does not. -/
theorem keyDownResolvesWait : Obligations.KeyDownResolvesWait := fun s k =>
  ⟨fun waiting => congrArg _ (keyDown_of_awaitingKey s k waiting), fun other => congrArg _ (keyDown_of_not_awaitingKey s k other)⟩

theorem deliver_eq : deliver s = { s with redrawPending := false } := by
  unfold deliver
  split
  · rfl
  · next done => rw [← Bool.eq_false_of_not_eq_true done]

theorem fire_deliver : fire .deliver s = .next { s with redrawPending := false } :=
  congrArg Host.Outcome.next (deliver_eq s)

theorem delivery_of_pending (h : s.redrawPending = true) : delivery s = some s.FB := if_pos h

theorem delivery_of_not_pending (h : s.redrawPending = false) : delivery s = none := if_neg (by simp [h])

/-- Settles O21: a delivery clears the mark (`fire_deliver`), by which it hands the framebuffer out or nothing. -/
theorem deliverClearsRedraw : Obligations.DeliverClearsRedraw := fun s =>
  ⟨_, fire_deliver s, rfl, delivery_of_pending s, delivery_of_not_pending s, delivery_of_not_pending _ rfl, fire_deliver _⟩

end Sys2Proof.Machine
end

section
/-! Runs and executions (spec R7, R180): a run fires what its record of moves holds, ticks run the delay timer out, a running core
is stepped where it stands, and a key-wait lasts until the key-down. -/

namespace Sys2Proof.Machine

variable {s t u : State} {m : Transition}

/-! ## The record of moves under a transition -/

/-- An answer with another record of moves. -/
def withMoves (l : List Transition) (w : LaterMoves) : Result → Result
  | .next t => .next { t with schedule := l, later := w }
  | .fault f => .fault f
  | .refused r => .refused r

/-- `fire_moves`, for every answer. -/
theorem fire_withMoves (m : Transition) (s : State) (l : List Transition) (w : LaterMoves) :
    fire m { s with schedule := l, later := w } = withMoves l w (fire m s) := by
  rcases fire_next_or_oversized m s with ⟨t, e⟩ | ⟨bytes, rfl, large, e⟩
  · rw [fire_moves s l w e, e, withMoves]
  · rw [e, withMoves]
    exact if_pos large

theorem fire_keeps_moves (h : fire m s = .next t) : t.schedule = s.schedule ∧ t.later = s.later := by
  have own : t = { t with schedule := s.schedule, later := s.later } :=
    Host.Outcome.next.inj (h.symm.trans (fire_moves s s.schedule s.later h))
  rw [own]
  exact ⟨rfl, rfl⟩

/-! ## A finite sequence put into the schedule -/

theorem run_succ_of_next (k : Nat) (h : step s = .next t) : Sys2Proof.core.run (k + 1) s = Sys2Proof.core.run k t := by
  simp only [Host.Core.run, show Sys2Proof.core.step s = .next t from h]

theorem run_succ_of_fault (k : Nat) {f : Fault} (h : step s = .fault f) : Sys2Proof.core.run (k + 1) s = .fault f := by
  simp only [Host.Core.run, show Sys2Proof.core.step s = .fault f from h]

theorem fireAll_cons_of_next (rest : List Transition) (h : fire m s = .next t) :
    fireAll (m :: rest) s = fireAll rest t := by
  simp only [fireAll, h]

theorem fireAll_cons_of_fault (rest : List Transition) {f : Fault} (h : fire m s = .fault f) :
    fireAll (m :: rest) s = .fault f := by
  simp only [fireAll, h]

theorem step_scheduled (s : State) (m : Transition) (rest : List Transition) :
    step { s with schedule := m :: rest } = withMoves rest s.later (fire m s) := by
  rw [step_eq_fire, nextMove, nextMoveFrom_of_scheduled _ _ rfl]
  exact fire_withMoves m s rest s.later

theorem run_scheduled (moves : List Transition) (quiet : s.schedule = []) :
    Sys2Proof.core.run moves.length ({ s with schedule := moves } : State) = fireAll moves s := by
  induction moves generalizing s with
  | nil =>
    have own : { s with schedule := [] } = s := by rw [← quiet]
    exact congrArg Host.Outcome.next own
  | cons m rest ih =>
    have steps := step_scheduled s m rest
    rcases fire_next_or_oversized m s with ⟨t, e⟩ | ⟨bytes, -, -, e⟩ <;> rw [e, withMoves] at steps
    · obtain ⟨schedule, later⟩ := fire_keeps_moves e
      rw [List.length_cons, run_succ_of_next _ steps, ← later, ih (schedule.trans quiet), fireAll_cons_of_next rest e]
    · exact (run_succ_of_fault _ steps).trans (fireAll_cons_of_fault rest e).symm

/-! ## Executions and runs -/

variable {states : Nat → State} {moves source : Nat → Transition}

theorem isRun_of_isExecution (h : IsExecution states moves) :
    IsRun moves fun n => { states n with schedule := [], later := .free n } :=
  fun n => fire_moves (states n) [] (.free (n + 1)) (h n)

theorem isExecution_of_isRun (h : IsRun source states) :
    IsExecution (fun n => (states n).bare) (movesOf source states) := by
  intro n
  obtain ⟨l, w, moved⟩ := nextMoveFrom_eq (states n) source
  have bare := fire_moves _ [] (.repeating []) (h n)
  rw [moved] at bare
  exact bare

/-! ## A repeating period -/

variable {period : List Transition}

theorem later_of_repeating (h : s.later = .repeating period) :
    (nextMoveFrom source s).2.later = .repeating period := by
  unfold nextMoveFrom
  split
  · exact h
  · split
    · exact h
    · exact h
    · next free => cases h.symm.trans free

theorem later_isRun (h : IsRun source states) (first : (states 0).later = .repeating period) (n : Nat) :
    (states n).later = .repeating period := by
  induction n with
  | zero => exact first
  | succ n ih => exact (fire_keeps_moves (h n)).2.trans (later_of_repeating ih)

/-- A run fires the head of its schedule and keeps the rest of it. -/
theorem movesOf_scheduled (h : IsRun source states) {n : Nat} {rest : List Transition}
    (scheduled : (states n).schedule = m :: rest) :
    movesOf source states n = m ∧ (states (n + 1)).schedule = rest := by
  have moved := nextMoveFrom_of_scheduled (states n) source scheduled
  exact ⟨congrArg Prod.fst moved, (fire_keeps_moves (h n)).1.trans (congrArg (fun p => p.2.schedule) moved)⟩

/-- With its schedule spent, a run fires the head of the period and schedules the rest of it. -/
theorem movesOf_repeating (h : IsRun source states) {n : Nat} {rest : List Transition} (spent : (states n).schedule = [])
    (later : (states n).later = .repeating (m :: rest)) :
    movesOf source states n = m ∧ (states (n + 1)).schedule = rest := by
  have moved := nextMoveFrom_of_repeating (states n) source spent later
  exact ⟨congrArg Prod.fst moved, (fire_keeps_moves (h n)).1.trans (congrArg (fun p => p.2.schedule) moved)⟩

/-- What a schedule holds is fired. -/
theorem scheduled_fires (h : IsRun source states) {l : List Transition} {n : Nat} (scheduled : (states n).schedule = l)
    (hm : m ∈ l) : ∃ k, n ≤ k ∧ movesOf source states k = m := by
  induction l generalizing n with
  | nil => cases hm
  | cons a rest ih =>
    obtain ⟨fires, rest⟩ := movesOf_scheduled h scheduled
    rcases List.mem_cons.1 hm with rfl | later
    · exact ⟨n, le_rfl, fires⟩
    · exact (ih rest later).imp fun _ found => ⟨by omega, found.2⟩

theorem schedule_runs_out (h : IsRun source states) {l : List Transition} {n : Nat}
    (scheduled : (states n).schedule = l) : ∃ k, n ≤ k ∧ (states k).schedule = [] := by
  induction l generalizing n with
  | nil => exact ⟨n, le_rfl, scheduled⟩
  | cons a rest ih => exact (ih (movesOf_scheduled h scheduled).2).imp fun _ found => ⟨by omega, found.2⟩

/-- What the period holds is fired again and again. -/
theorem period_recurs (h : IsRun source states) (first : (states 0).later = .repeating period) (hm : m ∈ period)
    (n : Nat) : ∃ k, n ≤ k ∧ movesOf source states k = m := by
  obtain ⟨k, past, spent⟩ := schedule_runs_out h (n := n) rfl
  have later := later_isRun h first k
  cases period with
  | nil => cases hm
  | cons a rest =>
    obtain ⟨fires, rest⟩ := movesOf_repeating h spent later
    rcases List.mem_cons.1 hm with rfl | inRest
    · exact ⟨k, past, fires⟩
    · exact (scheduled_fires h rest inRest).imp fun _ found => ⟨by omega, found.2⟩

/-! ## A running core is stepped where it stands -/

/-- No transition but `Step()`, `Reset()` and a load touches a running core's instruction. -/
theorem fire_keeps_instruction (running : s.run = .running) (h : fire m s = .next u) (noStep : m ≠ .step)
    (noReset : m ≠ .reset) (noLoad : ∀ bytes, m ≠ .loadProgram bytes) :
    u.run = .running ∧ u.PC = s.PC ∧ fetchWord u = fetchWord s := by
  cases m with
  | step => exact absurd rfl noStep
  | reset => exact absurd rfl noReset
  | loadProgram bytes => exact absurd rfl (noLoad bytes)
  | tick60 | keyUp => cases h; exact ⟨running, rfl, rfl⟩
  | keyDown k =>
    cases h
    rw [keyDown_of_not_awaitingKey s k (by simp [running])]
    exact ⟨running, rfl, rfl⟩
  | deliver =>
    cases h
    rw [deliver_eq]
    exact ⟨running, rfl, rfl⟩

/-- The first step that comes. -/
theorem exists_first_step {n : Nat} (h : ∃ k, n ≤ k ∧ moves k = .step) :
    ∃ k, n ≤ k ∧ moves k = .step ∧ ∀ j, n ≤ j → j < k → moves j ≠ .step := by
  classical
  obtain ⟨past, steps⟩ := Nat.find_spec h
  exact ⟨Nat.find h, past, steps, fun j hj before stepped => Nat.find_min h before ⟨hj, stepped⟩⟩

theorem instruction_kept (h : IsExecution states moves) {n k : Nat} (running : (states n).run = .running) (hk : n ≤ k)
    (others : ∀ j, n ≤ j → j < k → moves j ≠ .step ∧ moves j ≠ .reset ∧ ∀ bytes, moves j ≠ .loadProgram bytes) :
    (states k).run = .running ∧ (states k).PC = (states n).PC ∧ fetchWord (states k) = fetchWord (states n) := by
  induction k, hk using Nat.le_induction with
  | base => exact ⟨running, rfl, rfl⟩
  | succ k hk ih =>
    obtain ⟨run, pc, word⟩ := ih fun j hj before => others j hj (by omega)
    obtain ⟨noStep, noReset, noLoad⟩ := others k hk (by omega)
    obtain ⟨run', pc', word'⟩ := fire_keeps_instruction run (h k) noStep noReset noLoad
    exact ⟨run', pc'.trans pc, word'.trans word⟩

theorem running_is_stepped_there (h : IsExecution states moves) (fair : RunningIsStepped states moves) {n : Nat}
    (running : (states n).run = .running) :
    ∃ k, n ≤ k ∧ moves k = .step ∧
      ((∀ j, n ≤ j → j < k → moves j ≠ .reset ∧ ∀ bytes, moves j ≠ .loadProgram bytes) →
        (states k).run = .running ∧ (states k).PC = (states n).PC ∧ fetchWord (states k) = fetchWord (states n)) := by
  obtain ⟨k, past, steps, first⟩ := exists_first_step (fair n running)
  exact ⟨k, past, steps, fun others => instruction_kept h running past fun j hj before =>
    ⟨first j hj before, others j hj before⟩⟩

/-- Settles O22: the four cases of the next move; a finite sequence (`run_scheduled`); runs and executions
(`isRun_of_isExecution`, `isExecution_of_isRun`); a repeating period (`period_recurs`); and the consequence of the first fairness
assumption (`running_is_stepped_there`). -/
theorem scheduleHeadFires : Obligations.ScheduleHeadFires := by
  refine ⟨fun s m rest scheduled => ?_, fun s m rest spent later => ?_, fun s => step_eq_cycle s, fun s turn spent later => ?_,
    fun s moves => run_scheduled moves, fun _ => rfl, fun _ _ => isRun_of_isExecution, fun _ _ => isExecution_of_isRun,
    fun source states period h first => ⟨fun ticks => period_recurs h first ticks, fun steps n _ => period_recurs h first steps n⟩,
    fun states moves h fair n => running_is_stepped_there h fair⟩
  · rw [step_eq_fire, nextMove, nextMoveFrom_of_scheduled s _ scheduled]
  · rw [step_eq_fire, nextMove, nextMoveFrom_of_repeating s _ spent later]
  · rw [step_eq_fire, nextMove, nextMoveFrom_of_free s _ spent later]

/-! ## The timers -/

theorem toNat_tickTimer (v : Byte) : (tickTimer v).toNat = v.toNat - 1 := by
  unfold tickTimer
  split
  · bv_omega
  · omega

theorem tone_iff (s : State) : tone s = true ↔ s.ST.toNat > 0 := decide_eq_true_iff

/-- No transition but a `Step()` of `Fx15` makes the delay timer longer. -/
theorem fire_delay_le (h : fire m s = .next u)
    (noWrite : m = .step → s.run = .running → ∀ x, decode (fetchWord s) ≠ .instr (.ldDT x)) :
    u.DT.toNat ≤ s.DT.toNat := by
  cases m with
  | step =>
    by_cases running : s.run = .running
    · rcases cycle_cases s running h with ⟨-, rfl⟩ | ⟨-, w, -, rfl⟩ | ⟨-, i, hd, he⟩
      · exact le_rfl
      · exact le_rfl
      · rcases exec_cases he with ⟨-, rfl⟩ | ⟨-, rfl⟩
        · rcases delayAfter_eq (i := i) (s := s) with kept | ⟨x, rfl⟩
          · exact (congrArg BitVec.toNat kept).le
          · exact absurd hd (noWrite rfl running x)
        · exact le_rfl
    · cases (cycle_of_not_running s running).symm.trans h
      exact le_rfl
  | tick60 =>
    cases h
    exact (toNat_tickTimer s.DT).trans_le (Nat.sub_le _ _)
  | reset => cases h; exact Nat.zero_le _
  | keyUp => cases h; exact le_rfl
  | keyDown k =>
    cases h
    unfold keyDown
    dsimp only
    split <;> exact le_rfl
  | deliver => cases h; rw [deliver_eq]
  | loadProgram bytes =>
    obtain ⟨-, rfl⟩ := loadProgram_cases s h
    exact le_rfl

/-- From the `n`-th state on no `Fx15` is executed. -/
def NoDelayWrite (states : Nat → State) (moves : Nat → Transition) (n : Nat) : Prop :=
  ∀ k, n ≤ k → moves k = .step → (states k).run = .running → ∀ x, decode (fetchWord (states k)) ≠ .instr (.ldDT x)

theorem delay_antitone (h : IsExecution states moves) {n k : Nat} (noWrite : NoDelayWrite states moves n) (hk : n ≤ k) :
    (states k).DT.toNat ≤ (states n).DT.toNat := by
  induction k, hk using Nat.le_induction with
  | base => exact le_rfl
  | succ k hk ih => exact (fire_delay_le (h k) (noWrite k hk)).trans ih

/-- A tick at `k` leaves the delay timer at most what it was before, less one. -/
theorem delay_after_tick (h : IsExecution states moves) {k : Nat} (tick : moves k = .tick60) :
    (states (k + 1)).DT.toNat = (states k).DT.toNat - 1 := by
  have ticked : Host.Outcome.next (tick60 (states k)) = .next (states (k + 1)) := tick ▸ h k
  rw [← Host.Outcome.next.inj ticked]
  exact toNat_tickTimer _

/-- The number of ticks that are enough is the value of the timer. -/
theorem delay_runs_out (h : IsExecution states moves) (ticks : TicksKeepComing moves) (d n : Nat)
    (noWrite : NoDelayWrite states moves n) (hd : (states n).DT.toNat ≤ d) :
    ∃ m, n ≤ m ∧ ∀ k, m ≤ k → (states k).DT = 0#8 := by
  induction d generalizing n with
  | zero =>
    refine ⟨n, le_rfl, fun k hk => BitVec.eq_of_toNat_eq ?_⟩
    exact Nat.le_zero.1 ((delay_antitone h noWrite hk).trans hd)
  | succ d ih =>
    obtain ⟨k, hk, tick⟩ := ticks n
    have before := delay_antitone h noWrite hk
    have after := delay_after_tick h tick
    obtain ⟨m, hm, zero⟩ := ih (k + 1) (fun j hj => noWrite j (by omega)) (by omega)
    exact ⟨m, by omega, zero⟩

/-- Settles O18: a tick takes one from each timer (`toNat_tickTimer`), and by induction on its value the delay timer runs out
(`delay_runs_out`). -/
theorem tickDecrementsTimers : Obligations.TickDecrementsTimers := by
  refine ⟨fun s => ⟨tick60 s, rfl, rfl, toNat_tickTimer s.DT, toNat_tickTimer s.ST, ?_⟩,
    fun states moves h ticks n noWrite => delay_runs_out h ticks _ n noWrite le_rfl⟩
  rw [tone_iff, show (tick60 s).ST.toNat = s.ST.toNat - 1 from toNat_tickTimer s.ST]
  omega

/-! ## The key-wait -/

/-- With no other agent to move a waiting core stays as it is, for any number of steps (R154). -/
theorem run_of_awaitingKey (waiting : s.run = .awaitingKey) (spent : s.schedule = []) (later : s.later = .repeating [])
    (k : Nat) : Sys2Proof.core.run k s = .next s := by
  have holds : step s = .next s := by rw [step_eq_cycle s spent later, cycle_of_awaitingKey s waiting]
  induction k with
  | zero => rfl
  | succ k ih => rw [run_succ_of_next k holds, ih]

/-- Settles O52: the wait of `Fx0A` lasts (`run_of_awaitingKey`) until the key-down (`keyDown_of_awaitingKey`). -/
theorem keyWaitHoldsUntilKeyDown : Obligations.KeyWaitHoldsUntilKeyDown := by
  intro s x k n spent later
  refine ⟨_, _, exec_ldKey s x, run_of_awaitingKey (s := { s with run := .awaitingKey, waitReg := x }) rfl spent later n, rfl,
    congrArg Host.Outcome.next (keyDown_of_awaitingKey _ k rfl), rfl, ?_, rfl, fun r other => ?_⟩
  · rw [State.V_set_get, if_pos rfl]
    exact (BitVec.toNat_ofNat ..).trans (Nat.mod_eq_of_lt (by omega))
  · rw [State.V_set_get, if_neg other]

end Sys2Proof.Machine
end

section
/-! Registers and control flow (spec R80 to R110): what each instruction makes of the whole state. -/

namespace Sys2Proof.Machine

variable {s : State} {i : Instr}

/-! ## Load, add, logic -/

theorem add_eq_ofNat (a b : Byte) : a + b = BitVec.ofNat 8 ((a.toNat + b.toNat) % 256) := by
  apply BitVec.eq_of_toNat_eq
  rw [BitVec.toNat_add, BitVec.toNat_ofNat]
  omega

/-- Settles O23: the effects of the three instructions; the sum of bytes is the sum of their numbers modulo 256 (`add_eq_ofNat`). -/
theorem loadAndAddImmediate : Obligations.LoadAndAddImmediate := fun _ _ _ _ =>
  ⟨rfl, by rw [← add_eq_ofNat]; rfl, rfl⟩

/-- Settles O24: the effects of the three instructions are these states. -/
theorem logicWritesOnlyVx : Obligations.LogicWritesOnlyVx := fun _ _ _ => ⟨rfl, rfl, rfl⟩

/-! ## The flag writers (R80) -/

theorem writeFlagged_V_dest (s : State) (x : Reg) (flag : Bool) (result : Byte) :
    (writeFlagged s x flag result).V[x] = result := by
  have reads := writeFlagged_reg s x x flag result
  rwa [if_pos rfl] at reads

theorem writeFlagged_V_flag (s : State) {x : Reg} (flag : Bool) (result : Byte) (hx : x ≠ 15) :
    (writeFlagged s x flag result).V[(15 : Reg)] = flagByte flag := by
  have reads := writeFlagged_reg s x 15 flag result
  rwa [if_neg hx.symm, if_pos (show 15 = flagReg from rfl)] at reads

theorem flagByte_decide (c : Prop) [Decidable c] : flagByte (decide c) = if c then 1#8 else 0#8 := by
  by_cases hc : c <;> simp [flagByte, hc]

theorem toNat_sub_byte (a b : Byte) : (a - b).toNat = (256 + a.toNat - b.toNat) % 256 := by
  rw [BitVec.toNat_sub]
  omega

/-- Settles O25: the destination holds the sum, VF the carry (`writeFlagged_V_dest`, `writeFlagged_V_flag`,
`writeFlagged_V_ne`). -/
theorem addSetsCarry : Obligations.AddSetsCarry := fun _ _ _ =>
  ⟨_, rfl, rfl, (congrArg BitVec.toNat (writeFlagged_V_dest ..)).trans (BitVec.toNat_add ..),
    fun hx => (writeFlagged_V_flag _ _ _ hx).trans (flagByte_decide _), fun _ hr hf => writeFlagged_V_ne _ _ hr hf⟩

/-- Settles O26: as the addition, with the difference and the strict comparison. -/
theorem subtractFlagIsStrict : Obligations.SubtractFlagIsStrict := by
  refine fun s x y => ⟨⟨_, rfl, rfl, ?_⟩, ⟨_, rfl, rfl, ?_⟩⟩
  all_goals exact ⟨(congrArg BitVec.toNat (writeFlagged_V_dest ..)).trans (toNat_sub_byte ..),
    fun hx => (writeFlagged_V_flag _ _ _ hx).trans (flagByte_decide _), fun _ hr hf => writeFlagged_V_ne _ _ hr hf⟩

/-- The byte of a flag that is a bit of another byte. -/
theorem toNat_flagByte_getLsbD (a : Byte) (j : Nat) : (flagByte (a.getLsbD j)).toNat = a.toNat / 2 ^ j % 2 := by
  rw [BitVec.getLsbD, Nat.testBit_eq_decide_div_mod_eq, flagByte_decide]
  split
  · next one => exact one.symm
  · next other => exact (Nat.mod_two_ne_one.1 other).symm

/-- Settles O27: the destination holds the shifted value, VF the bit shifted out, and the field `y` is not used. -/
theorem shiftsWorkInPlace : Obligations.ShiftsWorkInPlace := by
  refine fun s x y => ⟨⟨_, rfl, rfl, ?_, fun hx => ?_, fun _ hr hf => writeFlagged_V_ne _ _ hr hf, fun _ => rfl⟩,
    ⟨_, rfl, rfl, ?_, fun hx => ?_, fun _ hr hf => writeFlagged_V_ne _ _ hr hf, fun _ => rfl⟩⟩
  · exact (congrArg BitVec.toNat (writeFlagged_V_dest ..)).trans (BitVec.toNat_ushiftRight ..)
  · refine (congrArg BitVec.toNat (writeFlagged_V_flag _ _ _ hx)).trans ((toNat_flagByte_getLsbD ..).trans ?_)
    rw [Nat.pow_zero, Nat.div_one]
    rfl
  · refine (congrArg BitVec.toNat (writeFlagged_V_dest ..)).trans ((BitVec.toNat_shiftLeft ..).trans ?_)
    rw [Nat.shiftLeft_eq, Nat.mul_comm]
    rfl
  · refine (congrArg BitVec.toNat (writeFlagged_V_flag _ _ _ hx)).trans ((toNat_flagByte_getLsbD ..).trans ?_)
    have := (s.V[x]).isLt
    exact Nat.mod_eq_of_lt (by simp only [State.reg_eq]; omega)

/-- Settles O28: the effect for the free draw and for a given one; a masked byte has no bit outside the mask. -/
theorem randomIsMasked : Obligations.RandomIsMasked := by
  refine fun s x kk => ⟨rfl, fun _ => rfl, fun t h b clear => ?_⟩
  cases h
  have drawn : (s.V.set x (Config.draw8 s.draws &&& kk))[x] = Config.draw8 s.draws &&& kk :=
    (State.V_set_get ..).trans (if_pos rfl)
  refine (congrArg (BitVec.getLsbD · b) drawn).trans ?_
  rw [BitVec.getLsbD_and, clear, Bool.and_false]

/-- Settles O29: VF holds a `flagByte`, unless a draw faults (R163). -/
theorem flagIsZeroOrOne : Obligations.FlagIsZeroOrOne := by
  refine ⟨fun s t x y i hi hx h => ?_, fun s t x y n h => ?_⟩
  · simp only [List.mem_cons, List.not_mem_nil, or_false] at hi
    rcases hi with rfl | rfl | rfl | rfl | rfl
    all_goals
      cases h
      exact (writeFlagged_V_flag _ _ _ hx).symm ▸ flagByte_zero_or_one _
  · rcases exec_cases h with ⟨-, rfl⟩ | ⟨-, rfl⟩
    · refine .inr ?_
      have flag : (effectOf (.drw x y n) s).V[(15 : Reg)] = flagByte _ := (State.V_set_get ..).trans (if_pos rfl)
      exact flag.symm ▸ flagByte_zero_or_one _
    · exact .inl rfl

/-! ## Call and return -/

theorem exec_of_fault {f : FaultRecord} (h : executeCheck i s = f) (hf : f ≠ .none) : exec i s = .next (s.raise f) := by
  subst h
  exact exec_of_fails hf

/-- Settles O33: the two checks fail with these records. -/
theorem stackFaultsArePrecise : Obligations.StackFaultsArePrecise :=
  ⟨fun _ _ full => exec_of_fault (if_pos full) nofun, fun _ empty => exec_of_fault (if_pos empty) nofun⟩

/-- A call with room pushes the address of the next instruction and jumps (R101). -/
theorem exec_call (s : State) (nnn : Addr12) (room : s.sp.val < 16) :
    exec (.call nnn) s = .next { s with
      PC := nnn.setWidth 16, sp := ⟨s.sp.val + 1, by omega⟩, stack := s.stack.set s.sp.val (s.PC + 2) } := by
  have passes : executeCheck (.call nnn) s = .none := (callCheck_eq_none s nnn).2 (by omega)
  rw [exec_of_passes passes]
  simp only [effectOf, spAfter, stackAfter, State.push_of_room s _ room]
  rfl

/-- A return with an entry held pops it into PC (R102). -/
theorem exec_ret (s : State) (j : Fin 16) (held : s.sp.val = j.val + 1) :
    exec .ret s = .next { s with sp := ⟨j.val, by omega⟩, PC := s.stack[j] } := by
  have sp : s.pop.sp = ⟨j.val, by omega⟩ := Fin.ext (by simp [held])
  have top : s.top = s.stack[j] := by simp [State.top, held]
  have passes : executeCheck .ret s = .none := (retCheck_eq_none s).2 (by omega)
  rw [exec_of_passes passes, ← sp, ← top]
  rfl

/-- Settles O31: the effect is that of `exec_call`. -/
theorem callPushesReturnAddress : Obligations.CallPushesReturnAddress := fun s nnn room =>
  ⟨_, exec_call s nnn room, rfl, rfl, Vector.getElem_set_self room, fun _ other => Vector.getElem_set_ne room _ other.symm⟩

/-- Settles O32: the effect is that of `exec_ret`. -/
theorem returnPopsIntoPC : Obligations.ReturnPopsIntoPC := exec_ret

/-- Settles O34: the entry that the return pops (`exec_ret`) is the one that the call pushed (`exec_call`). -/
theorem callThenReturnRestoresPC : Obligations.CallThenReturnRestoresPC := by
  refine fun s nnn room => ⟨_, _, exec_call s nnn room, exec_ret _ ⟨s.sp.val, room⟩ rfl, ?_, fun j below => ?_⟩
  · have popped : (s.stack.set s.sp.val (s.PC + 2))[s.sp.val] = s.PC + 2 := Vector.getElem_set_self room
    exact congrArg (fun pc => { s with PC := pc, stack := s.stack.set s.sp.val (s.PC + 2) }) popped
  · exact Vector.getElem_set_ne room _ (by omega)

/-! ## Jumps and skips -/

/-- Settles O35: the target does not wrap (`toNat_zextAddr_add_zext16`). -/
theorem indexedJumpAddsV0 : Obligations.IndexedJumpAddsV0 := fun s nnn =>
  ⟨s.jump (zextAddr nnn + zext16 (s.reg 0)), rfl, rfl, toNat_zextAddr_add_zext16 nnn (s.reg 0)⟩

theorem skip_beq (s : State) (a b : Byte) : s.skip (a == b) = { s with PC := s.PC + if a = b then 4 else 2 } := by
  simp only [State.skip_eq, beq_iff_eq]

theorem skip_bne (s : State) (a b : Byte) : s.skip (a != b) = { s with PC := s.PC + if a = b then 2 else 4 } := by
  simp only [State.skip_eq, bne_iff_ne, ite_not]

/-- Settles O36: the four conditions are equalities or their negations (`skip_beq`, `skip_bne`). -/
theorem skipsAdvanceByFour : Obligations.SkipsAdvanceByFour := fun s _ _ _ =>
  ⟨congrArg _ (skip_beq s _ _), congrArg _ (skip_bne s _ _), congrArg _ (skip_beq s _ _), congrArg _ (skip_bne s _ _)⟩

/-- A key number up to 15 is taken as it stands. -/
theorem keyNumber_eq {x : Reg} {k : Key} (h : s.V[x].toNat = k.val) : keyNumber s x = k := by
  apply Fin.ext
  show s.V[x].toNat % 16 = k.val
  rw [h]
  exact Nat.mod_eq_of_lt k.isLt

/-- Settles O37: the check passes, and the key is that of the number (`keyNumber_eq`). -/
theorem keySkipsReadLatch : Obligations.KeySkipsReadLatch := by
  intro s x k h
  have passes : keyCheck x s = .none := (keyCheck_eq_none s x).2 (by rw [State.reg_eq, h]; omega)
  constructor
  · show guarded (keyCheck x s) s (s.skip (s.key (keyNumber s x))) = _
    rw [passes, guarded_none, keyNumber_eq h, State.skip_eq]
    rfl
  · show guarded (keyCheck x s) s (s.skip (!s.key (keyNumber s x))) = _
    rw [passes, guarded_none, keyNumber_eq h, State.skip_eq]
    simp only [Bool.not_eq_true', ← Bool.not_eq_true, ite_not]
    rfl

/-- Settles O38: the check of both key skips fails with this record. -/
theorem keyNumberAboveFifteenFaults : Obligations.KeyNumberAboveFifteenFaults := fun _ _ above =>
  ⟨exec_of_fault (if_pos above) nofun, exec_of_fault (if_pos above) nofun⟩

end Sys2Proof.Machine
end

section
/-! Memory, display, timers and keys (spec R120 to R153): what each instruction makes of the whole state. -/

namespace Sys2Proof.Machine

variable {s t : State}

/-! ## The index register -/

/-- Settles O39: the two effects; the sum of words is the sum of the numbers modulo 65536. -/
theorem indexLoadAndAdd : Obligations.IndexLoadAndAdd := by
  refine fun s x nnn => ⟨rfl, ?_⟩
  have sum : s.I + zext16 s.V[x] = BitVec.ofNat 16 ((s.I.toNat + s.V[x].toNat) % 65536) := by
    apply BitVec.eq_of_toNat_eq
    rw [BitVec.toNat_add, BitVec.toNat_setWidth_of_le (by decide), BitVec.toNat_ofNat]
    omega
  rw [← sum]
  rfl

/-! ## The span of an access -/

theorem spanCheck_of_inside {count : Nat} (h : effAddr s (count - 1) ≤ 4095) : spanCheck count s = .none :=
  (spanCheck_eq_none s count).2 (.inr h)

/-- Settles O44: the check of each access fails with its highest address (`spanCheck_of_past`). -/
theorem spanPastMemoryFaults : Obligations.SpanPastMemoryFaults := fun s x _ n =>
  ⟨fun past => exec_of_fault (spanCheck_of_past s 3 (by decide) past) nofun,
    fun past => ⟨exec_of_fault (spanCheck_of_past s (x.val + 1) (by omega) past) nofun,
      exec_of_fault (spanCheck_of_past s (x.val + 1) (by omega) past) nofun⟩,
    fun rows past => exec_of_fault (spanCheck_of_past s n.toNat rows past) nofun⟩

/-! ## The digits of `Fx33` -/

theorem exec_bcd_of_inside (x : Reg) (h : effAddr s 2 ≤ 4095) : exec (.bcd x) s = .next (effectOf (.bcd x) s) :=
  exec_of_passes (spanCheck_of_inside (count := 3) h)

theorem toNat_ofNat_byte {n : Nat} (h : n < 256) : (BitVec.ofNat 8 n).toNat = n :=
  (BitVec.toNat_ofNat ..).trans (Nat.mod_eq_of_lt h)

theorem toNat_hundredsDigit (v : Byte) : (hundredsDigit v).toNat = v.toNat / 100 := toNat_ofNat_byte (by have := v.isLt; omega)

theorem toNat_tensDigit (v : Byte) : (tensDigit v).toNat = v.toNat / 10 % 10 := toNat_ofNat_byte (by omega)

theorem toNat_onesDigit (v : Byte) : (onesDigit v).toNat = v.toNat % 10 := toNat_ofNat_byte (by omega)

/-- The bytes at `I`, `I + 1`, `I + 2` after `Fx33` (R124). -/
theorem bcd_bytes (s : State) (x : Reg) :
    ((effectOf (.bcd x) s).byte (effAddr s 0)).toNat = s.V[x].toNat / 100 ∧
      ((effectOf (.bcd x) s).byte (effAddr s 1)).toNat = s.V[x].toNat / 10 % 10 ∧
      ((effectOf (.bcd x) s).byte (effAddr s 2)).toNat = s.V[x].toNat % 10 := by
  have reads (a : Nat) : (effectOf (.bcd x) s).byte a = (storeDigits s s.V[x]).byte a := rfl
  have apart {j k : Nat} (h : j ≠ k) : effAddr s j ≠ effAddr s k := fun e => h (Nat.add_left_cancel e)
  simp only [reads, storeDigits_byte, apart (show 0 ≠ 2 by decide), apart (show 0 ≠ 1 by decide),
    apart (show 1 ≠ 2 by decide), if_true, if_false]
  exact ⟨toNat_hundredsDigit _, toNat_tensDigit _, toNat_onesDigit _⟩

/-- Settles O41: the three bytes (`bcd_bytes`) and the others (`storeDigits_byte_outside`). -/
theorem bcdStoresDigits : Obligations.BcdStoresDigits := by
  intro s x inside
  obtain ⟨hundreds, tens, ones⟩ := bcd_bytes s x
  exact ⟨_, exec_bcd_of_inside x inside, rfl, hundreds, tens, ones, fun _ => storeDigits_byte_outside s.V[x]⟩

/-! ## The block transfers -/

theorem exec_stRegs_of_inside (x : Reg) (h : effAddr s x.val ≤ 4095) :
    exec (.stRegs x) s = .next (effectOf (.stRegs x) s) :=
  exec_of_passes (spanCheck_of_inside (count := x.val + 1) h)

theorem exec_ldRegs_of_inside (x : Reg) (h : effAddr s x.val ≤ 4095) :
    exec (.ldRegs x) s = .next (effectOf (.ldRegs x) s) :=
  exec_of_passes (spanCheck_of_inside (count := x.val + 1) h)

theorem stRegs_byte (s : State) {x i : Reg} (h : i ≤ x) : (effectOf (.stRegs x) s).byte (effAddr s i.val) = s.V[i] :=
  (effectOf_stRegs_byte x _).trans ((storeRegs_spec s x).2.1 i h)

/-- Settles O42: the stored bytes (`stRegs_byte`) and the others (`storeRegs_spec`). -/
theorem blockStoreWritesRegisters : Obligations.BlockStoreWritesRegisters := fun s x inside =>
  ⟨_, exec_stRegs_of_inside x inside, rfl, fun _ => stRegs_byte s,
    fun a outside => (effectOf_stRegs_byte x a).trans ((storeRegs_spec s x).2.2 a outside)⟩

/-- Settles O43: the registers after the loads (`loadRegs_spec`). -/
theorem blockLoadReadsMemory : Obligations.BlockLoadReadsMemory := by
  intro s x inside
  have loads := (loadRegs_spec s x).2
  exact ⟨_, exec_ldRegs_of_inside x inside, rfl, fun i loaded => (loads i).trans (if_pos loaded),
    fun i kept => (loads i).trans (if_neg (not_le.2 kept))⟩

/-- Settles O45: the two bytes of the fetched word are the bytes at PC (`highByte_fetchWord`, `lowByte_fetchWord`), each of which the
instruction stored (`stRegs_byte`, `bcd_bytes`) or did not (`effectOf_byte_of_not_storesTo`). -/
theorem storeIsSeenByNextFetch : Obligations.StoreIsSeenByNextFetch := by
  constructor
  · intro s x inside
    refine ⟨_, exec_stRegs_of_inside x inside, rfl, fun i hi here => ?_, fun i hi here => ?_, fun i j hj next here => ?_, ?_, ?_⟩
    · rw [highByte_fetchWord, here, stRegs_byte s hi]
    · rw [lowByte_fetchWord, here, stRegs_byte s hi]
    · have after : (effectOf (.stRegs x) s).PC.toNat + 1 = effAddr s j.val := by
        simp only [here, effAddr, next, Nat.add_assoc]
      have hi : i ≤ x := le_trans (Fin.le_def.2 (by omega)) hj
      exact congrArg₂ wordOfBytes (here ▸ stRegs_byte s hi) (after ▸ stRegs_byte s hj)
    · rw [highByte_fetchWord]
      exact effectOf_byte_of_not_storesTo
    · rw [lowByte_fetchWord]
      exact effectOf_byte_of_not_storesTo
  · intro s x inside
    obtain ⟨hundreds, tens, ones⟩ := bcd_bytes s x
    refine ⟨_, exec_bcd_of_inside x inside, rfl, ?_⟩
    rw [highByte_fetchWord, lowByte_fetchWord]
    exact ⟨fun here => here ▸ hundreds, fun here => here ▸ tens, fun here => here ▸ ones, fun here => here ▸ hundreds,
      fun here => here ▸ tens, fun here => here ▸ ones, effectOf_byte_of_not_storesTo, effectOf_byte_of_not_storesTo⟩

/-! ## The display -/

/-- Settles O47: the effect holds a blank framebuffer. -/
theorem clearScreenClearsCells : Obligations.ClearScreenClearsCells := fun _ =>
  ⟨_, rfl, rfl, blankFramebuffer_cell _ rfl⟩

theorem exec_drw_of_inside (x y : Reg) {n : Nibble} (h : n.toNat = 0 ∨ effAddr s (n.toNat - 1) ≤ 4095) :
    exec (.drw x y n) s = .next (effectOf (.drw x y n) s) :=
  exec_of_passes ((spanCheck_eq_none s n.toNat).2 h)

/-- The cells that a sprite covers, with the coordinates as the model wraps them. -/
theorem spriteCovers_iff (s : State) (x0 y0 : Byte) (n : Nat) (px : Fin 64) (py : Fin 32) :
    (∃ row < n, wrapY y0 row = py ∧ ∃ col < 8, wrapX x0 col = px ∧ spriteBit (s.byte (effAddr s row)) col = true) ↔
      spriteCovers s x0 y0 n px py := by
  constructor
  · rintro ⟨row, hrow, hy, col, hcol, hx, bit⟩
    exact ⟨row, col, hrow, hcol, Fin.ext_iff.1 hx, Fin.ext_iff.1 hy, bit⟩
  · rintro ⟨row, col, hrow, hcol, hx, hy, bit⟩
    exact ⟨row, hrow, Fin.ext hy, col, hcol, Fin.ext hx, bit⟩

variable (s) (x y : Reg) (n : Nibble)

/-- `Dxyn` flips the cells that its sprite covers (R142). -/
theorem flips_drw :
    Flips (spriteCovers s s.V[x] s.V[y] n.toNat) ⟨s.FB, false⟩ (drawSprite s s.V[x] s.V[y] n.toNat) :=
  (flips_drawSprite s _ _ _ (by have := n.isLt; omega)).congr (spriteCovers_iff s _ _ _)

theorem drw_flag :
    (effectOf (.drw x y n) s).V[(15 : Reg)] = flagByte (drawSprite s s.V[x] s.V[y] n.toNat).collision :=
  (State.V_set_get ..).trans (if_pos rfl)

theorem flagByte_eq_one_iff (b : Bool) : flagByte b = 1#8 ↔ b = true := by cases b <;> decide

/-- VF tells a collision: a covered cell that was set (R142). -/
theorem drw_flag_iff :
    (effectOf (.drw x y n) s).V[(15 : Reg)] = 1#8 ↔
      ∃ px py, spriteCovers s s.V[x] s.V[y] n.toNat px py ∧ s.cell px py = true := by
  rw [drw_flag, flagByte_eq_one_iff, (flips_drw s x y n).collides]
  simp only [Bool.false_eq_true, false_or]
  rfl

/-- Settles O48: the cells and the collision are those of `flips_drw`; `Dxyn` writes no register but VF. -/
theorem drawFlipsCoveredCells : Obligations.DrawFlipsCoveredCells := fun s x y n inside =>
  ⟨_, exec_drw_of_inside x y inside, rfl, (flips_drw s x y n).inside, (flips_drw s x y n).outside,
    (drw_flag s x y n).symm ▸ (flagByte_zero_or_one _).symm, drw_flag_iff s x y n,
    fun _ other => (State.V_set_get ..).trans (if_neg other)⟩

/-- A draw leaves memory and `I`, so that a second one at the same place covers the same cells. -/
theorem spriteCovers_effectOf_drw (x0 y0 : Byte) (k : Nat) :
    spriteCovers (effectOf (.drw x y n) s) x0 y0 k = spriteCovers s x0 y0 k := rfl

/-- Flipping the covered cells twice restores them (R142). -/
theorem draw_twice_FB (hx : (effectOf (.drw x y n) s).V[x] = s.V[x]) (hy : (effectOf (.drw x y n) s).V[y] = s.V[y]) :
    (effectOf (.drw x y n) (effectOf (.drw x y n) s)).FB = s.FB := by
  have first := flips_drw s x y n
  have second := (flips_drw (effectOf (.drw x y n) s) x y n).congr fun px py => by
    rw [hx, hy, spriteCovers_effectOf_drw]
  refine framebuffer_ext fun px py => ?_
  by_cases covered : spriteCovers s s.V[x] s.V[y] n.toNat px py
  · exact (second.inside px py covered).trans ((congrArg (!·) (first.inside px py covered)).trans (Bool.not_not _))
  · exact (second.outside px py covered).trans (first.outside px py covered)

/-- Settles O49: the framebuffer by `draw_twice_FB`; a covered cell is set before the second draw when it was unset before the
first. -/
theorem drawTwiceRestoresScreen : Obligations.DrawTwiceRestoresScreen := by
  intro s t x y n inside h hx hy
  obtain rfl : effectOf (.drw x y n) s = t := Host.Outcome.next.inj ((exec_drw_of_inside x y inside).symm.trans h)
  refine ⟨_, exec_drw_of_inside x y inside, draw_twice_FB s x y n hx hy, ?_⟩
  rw [drw_flag_iff, hx, hy, spriteCovers_effectOf_drw]
  refine exists_congr fun px => exists_congr fun py => and_congr_right fun covered => ?_
  have flipped : (effectOf (.drw x y n) s).cell px py = !s.cell px py := (flips_drw s x y n).inside px py covered
  rw [flipped, Bool.not_eq_true']

/-! ## Timers and keys -/

/-- Settles O50: the three effects; the tone follows the new value (`tone_iff`). -/
theorem timerAccess : Obligations.TimerAccess := by
  refine fun s x => ⟨rfl, rfl, _, rfl, rfl, ?_⟩
  rw [tone_iff, ne_eq, ← BitVec.toNat_inj]
  exact Nat.pos_iff_ne_zero

/-- Settles O51: the wait that `exec_ldKey` records. -/
theorem keyWaitBegins : Obligations.KeyWaitBegins := exec_ldKey

end Sys2Proof.Machine
end
